-- ==== Sys2Proof/Word.lean ====
section
/-! DEFINITION. The word types of the block: bytes and the unsigned 16-bit channel values (00_scope.md R10). -/

namespace Sys2Proof

/-- A byte, 0 to 255 (R10). -/
abbrev Byte := BitVec 8

/-- A u16, 0 to 65535 (R10): the width in which channel values travel (R118). -/
abbrev U16 := BitVec 16

end Sys2Proof
end

