-- ==== Sys2Proof/Config.lean ====
section
/-! DEFINITION. The fixed constants of the block (00_scope.md R6), its two parameters (R7, R8), and its one free value. -/

namespace Sys2Proof

/-- FRAME_LENGTH (R6). -/
@[simp] abbrev frameLength : Nat := 25

/-- PAYLOAD_LENGTH (R6): frame bytes 1 to 22. -/
@[simp] abbrev payloadLength : Nat := 22

/-- CHANNEL_COUNT (R6). -/
@[simp] abbrev channelCount : Nat := 16

/-- CHANNEL_BITS (R6): the channel mask is `2 ^ 11 - 1 = 0x07FF`. -/
@[simp] abbrev channelBits : Nat := 11

/-- HEADER, frame byte 0 (R6). -/
abbrev headerSentinel : Byte := 0x0F

/-- FOOTER, frame byte 24 (R6). -/
abbrev footerSentinel : Byte := 0x00

/-- ALT_FOOTER_NIBBLE, used only under LOW_NIBBLE_04 (R6). -/
abbrev altFooterNibble : Byte := 0x04

/-- FOOTER_RULE (R8): which footer bytes are accepted (30_encoding.md R74). -/
inductive FooterRule where
  | strict
  | lowNibble04
  deriving DecidableEq, Repr

/-- The configuration values, fixed before reset (70_reset_and_hazards.md R191). -/
structure Config where
  /-- CAPACITY, the number of ring cells C (R7). -/
  capacity : Nat
  /-- FOOTER_RULE (R8). -/
  footerRule : FooterRule
  deriving DecidableEq, Repr

/-- The values this hardware takes: C = 50 (R7) and STRICT (R8). -/
def Config.hardware : Config := { capacity := 50, footerRule := .strict }

/-- The configurations a model may take: 26 ≤ C ≤ 65535 (R7). -/
abbrev Config.Legal (c : Config) : Prop := 26 ≤ c.capacity ∧ c.capacity ≤ 65535

/-- FREE VALUE (log 3). The content of ring cell `a` before any byte was written to it: "unspecified; any value"
(10_state.md R45). It has no body, so nothing can be proved of its value. -/
opaque Config.staleByte : Nat → Byte

end Sys2Proof
end

