-- ==== Sys2Proof/Syntax.lean ====
section
/-! DEFINITION. The data the block works on and its nine commands: frames, flags, packets (00_scope.md R12), the command
transaction (30_encoding.md R75), the operand formats (R76) and the one inductive `Instr`, a constructor per row of
spec/opcode_table.json (R80). -/

namespace Sys2Proof

/-- A frame (R12, R70) by its fields: `header` is F[0], `payload` is F[1..22], `flagByte` is F[23], `footer` is F[24]. -/
structure Frame where
  header : Byte
  payload : List Byte
  flagByte : Byte
  footer : Byte
  deriving DecidableEq, Repr

/-- A Flags record (R12): data of a frame, never a flag of the block (10_state.md R37). -/
structure Flags where
  d1 : Bool
  d2 : Bool
  frameLost : Bool
  failsafe : Bool
  deriving DecidableEq, Repr

/-- A Packet (R12): 16 channel values, channel 0 first, and a Flags record. -/
structure Packet where
  channels : List U16
  flags : Flags
  deriving DecidableEq, Repr

/-- One command transaction (R75): the opcode byte and the operand, whose length the transport carries. -/
structure Command where
  op : Byte
  opnd : List Byte
  deriving DecidableEq, Repr

/-- The rows of the opcode map (R80). -/
inductive Opcode where
  | validate
  | decode
  | encode
  | decodeFlags
  | encodeFrame
  | parse
  | push
  | next
  | status
  deriving DecidableEq, Repr

/-- The operand formats (R76). -/
inductive Format where
  | none
  | byte
  | frame
  | channels
  | channelsAndFlags
  | block
  deriving DecidableEq, Repr

/-- The nine commands (R80). -/
inductive Instr where
  /-- VALIDATE F (40_validator.md R103). -/
  | validate (F : Frame)
  /-- DECODE F (41_codec.md R110). -/
  | decode (F : Frame)
  /-- ENCODE ch (41_codec.md R112). -/
  | encode (ch : List U16)
  /-- DECODE_FLAGS b (41_codec.md R114). -/
  | decodeFlags (b : Byte)
  /-- ENCODE_FRAME ch ; f (41_codec.md R115). -/
  | encodeFrame (ch : List U16) (f : Byte)
  /-- PARSE F (43_parse.md R160). -/
  | parse (F : Frame)
  /-- PUSH block (42_synchronizer.md R130), oldest byte first. -/
  | push (block : List Byte)
  /-- NEXT (42_synchronizer.md R133). -/
  | next
  /-- STATUS (42_synchronizer.md R144). -/
  | status
  deriving DecidableEq, Repr

/-- The row of the opcode map a command belongs to. -/
def Instr.opcode : Instr → Opcode
  | .validate _ => .validate
  | .decode _ => .decode
  | .encode _ => .encode
  | .decodeFlags _ => .decodeFlags
  | .encodeFrame _ _ => .encodeFrame
  | .parse _ => .parse
  | .push _ => .push
  | .next => .next
  | .status => .status

end Sys2Proof
end

