-- ==== Sys2Proof/WellFormed.lean ====
section
/-! DEFINITION. Well-formed commands: each operand has the length its format requires (30_encoding.md R76, R77, R84).
An ill-formed term stands for a command of a legal opcode with a wrong operand length (R82). -/

namespace Sys2Proof

/-- A frame is exactly 25 bytes (R12, R70): one header, 22 payload bytes, one flag byte, one footer. -/
abbrev Frame.WellFormed (F : Frame) : Prop := F.payload.length = payloadLength

/-- A channel array is exactly 16 values (R12, R77). -/
abbrev ChannelsWellFormed (ch : List U16) : Prop := ch.length = channelCount

/-- The operand has its format's length. PUSH takes any block (R76, R82). -/
def Instr.wellFormed : Instr → Bool
  | .validate F => decide F.WellFormed
  | .decode F => decide F.WellFormed
  | .encode ch => decide (ChannelsWellFormed ch)
  | .decodeFlags _ => true
  | .encodeFrame ch _ => decide (ChannelsWellFormed ch)
  | .parse F => decide F.WellFormed
  | .push _ => true
  | .next => true
  | .status => true

/-- `Instr.wellFormed` as a proposition. -/
abbrev Instr.WellFormed (i : Instr) : Prop := i.wellFormed = true

end Sys2Proof
end

