-- ==== Sys2Proof/Machine/Operands.lean ====
section
/-! DEFINITION. Operand and result byte strings: byte order (20_memory.md R54), channel arrays (30_encoding.md R77),
frames as bytes (00_scope.md R12), and the bit fields of a little-endian bitstream (20_memory.md R53). -/

namespace Sys2Proof

/-- A u16 from its two little-endian bytes (R77): `lo | (hi << 8)`, each byte widened by `zext_16` (R87). -/
def u16OfBytes (lo hi : Byte) : U16 := lo.setWidth 16 ||| (hi.setWidth 16 <<< 8)

/-- The two little-endian bytes of a u16 (R54, R78): `v[7:0]`, then `v[15:8]`. -/
def u16Bytes (v : U16) : List Byte := [v.extractLsb' 0 8, v.extractLsb' 8 8]

/-- A channel array operand as values (R77): `ch_in[i] = opnd[2i] | (opnd[2i+1] << 8)`. -/
def channelsOfBytes : List Byte → List U16
  | lo :: hi :: rest => u16OfBytes lo hi :: channelsOfBytes rest
  | _ => []

/-- A channel array as bytes (R78): channel 0 first, each value little-endian. -/
def channelBytes (ch : List U16) : List Byte := ch.flatMap u16Bytes

/-- The frame whose byte `k` is `W k` (R12): the one place that says where each field of a frame stands. -/
def Frame.ofWindow (W : Nat → Byte) : Frame where
  header := W 0
  payload := (List.range payloadLength).map fun k => W (1 + k)
  flagByte := W 23
  footer := W 24

/-- The bytes of a frame, first byte first (R55, R70). -/
def Frame.bytes (F : Frame) : List Byte := F.header :: (F.payload ++ [F.flagByte, F.footer])

/-- The integer whose consecutive `w`-bit fields are `vs`, field 0 lowest: `sum of vs[i] << (w * i)` for
fields below `2 ^ w` (R53 with w = 8, R112 with w = 11). -/
def packFields (w : Nat) : List Nat → Nat
  | [] => 0
  | v :: vs => v + (packFields w vs) <<< w

/-- Field `i` of width `w` of a bitstream held as an integer (R71): `P[w*i + w - 1 : w*i]`. -/
def fieldAt (w : Nat) (P i : Nat) : Nat := (P >>> (w * i)) &&& (2 ^ w - 1)

end Sys2Proof
end

