-- ==== Sys2Proof/Machine/Flags.lean ====
section
/-! DEFINITION. The flag byte and the Flags record (30_encoding.md R73, 41_codec.md R114). The block has no condition
codes of its own (10_state.md R37): this file holds every flag computation there is. -/

namespace Sys2Proof

/-- `decode_flags` (R114): bits 0 to 3 are d1, d2, frame_lost, failsafe, and bits 7:4 are ignored. -/
def decodeFlags (b : Byte) : Flags where
  d1 := b.getLsbD 0
  d2 := b.getLsbD 1
  frameLost := b.getLsbD 2
  failsafe := b.getLsbD 3

/-- One bit of a byte. -/
def bitByte (v : Bool) (k : Nat) : Byte := if v then (1 : Byte) <<< k else 0

/-- A Flags record as a result byte (R78, R114): `d1 | (d2 << 1) | (frame_lost << 2) | (failsafe << 3)`. -/
def flagsByte (f : Flags) : Byte :=
  bitByte f.d1 0 ||| bitByte f.d2 1 ||| bitByte f.frameLost 2 ||| bitByte f.failsafe 3

/-- The flag byte ENCODE_FRAME writes (R115): bits 7:4 of the flags operand are written 0. -/
def encodeFlags (f : Byte) : Byte := f &&& 0x0F

/-- A Packet as 33 result bytes (30_encoding.md R78). -/
def packetBytes (p : Packet) : List Byte := channelBytes p.channels ++ [flagsByte p.flags]

end Sys2Proof
end

