-- ==== Sys2Proof/Decode.lean ====
section
/-! DEFINITION. The command decoder, total on every transaction and rejecting by name (30_encoding.md R80 to R82), and
after it the encoder (R76, R80, R85). -/

namespace Sys2Proof

/-- Why a transaction is no command, in the order the checks are made (60_exceptions.md R174). -/
inductive DecodeError where
  /-- The opcode is not in the map (R81). -/
  | illegal (op : Byte)
  /-- A legal opcode whose operand has the wrong length (R82). -/
  | malformed (k : Opcode) (len : Nat)
  deriving DecidableEq, Repr

/-- The opcode byte of a row (R80). -/
def Opcode.code : Opcode → Byte
  | .validate => 0x01
  | .decode => 0x02
  | .encode => 0x03
  | .decodeFlags => 0x04
  | .encodeFrame => 0x05
  | .parse => 0x06
  | .push => 0x10
  | .next => 0x11
  | .status => 0x12

/-- The operand format of a row (R80). -/
def Opcode.format : Opcode → Format
  | .validate => .frame
  | .decode => .frame
  | .encode => .channels
  | .decodeFlags => .byte
  | .encodeFrame => .channelsAndFlags
  | .parse => .frame
  | .push => .block
  | .next => .none
  | .status => .none

/-- All rows of the map. -/
def Opcode.all : List Opcode :=
  [.validate, .decode, .encode, .decodeFlags, .encodeFrame, .parse, .push, .next, .status]

/-- The exact operand length a format requires (R76); FMT_BLK requires none. -/
def Format.length : Format → Option Nat
  | .none => some 0
  | .byte => some 1
  | .frame => some 25
  | .channels => some 32
  | .channelsAndFlags => some 33
  | .block => Option.none

/-- Does a format accept an operand of `n` bytes (R82)? -/
def Format.accepts (f : Format) (n : Nat) : Bool :=
  match f.length with
  | some m => n == m
  | Option.none => true

/-- The row of an opcode byte, matched on all 8 bits (R80); nothing for the 247 illegal values (R81). -/
def Opcode.ofByte (b : Byte) : Option Opcode := Opcode.all.find? fun k => k.code == b

/-- Operand assembly (R76, R77, R87) for an operand of the right length. -/
def Opcode.assemble (k : Opcode) (opnd : List Byte) : Instr :=
  match k with
  | .validate => .validate (Frame.ofWindow fun j => opnd.getD j 0)
  | .decode => .decode (Frame.ofWindow fun j => opnd.getD j 0)
  | .encode => .encode (channelsOfBytes opnd)
  | .decodeFlags => .decodeFlags (opnd.getD 0 0)
  | .encodeFrame => .encodeFrame (channelsOfBytes (opnd.take 32)) (opnd.getD 32 0)
  | .parse => .parse (Frame.ofWindow fun j => opnd.getD j 0)
  | .push => .push opnd
  | .next => .next
  | .status => .status

/-- Decode one transaction: the opcode first, the operand length second (R174). -/
def decode (c : Command) : Except DecodeError Instr :=
  match Opcode.ofByte c.op with
  | Option.none => .error (.illegal c.op)
  | some k =>
    if k.format.accepts c.opnd.length then .ok (k.assemble c.opnd)
    else .error (.malformed k c.opnd.length)

/-- The operand bytes of a command (R76, R77). -/
def Instr.operandBytes : Instr → List Byte
  | .validate F => F.bytes
  | .decode F => F.bytes
  | .encode ch => channelBytes ch
  | .decodeFlags b => [b]
  | .encodeFrame ch f => channelBytes ch ++ [f]
  | .parse F => F.bytes
  | .push block => block
  | .next => []
  | .status => []

/-- The encoder (R85): the opcode byte, then the operand bytes of R76. -/
def encode (i : Instr) : Command := { op := i.opcode.code, opnd := i.operandBytes }

/-- The whole command as bytes (R84): `1 + len(opnd)` of them. -/
def Command.bytes (c : Command) : List Byte := c.op :: c.opnd

/-- Byte `i` of a table word: the table numbers bit 0 as the least significant bit of the first byte (log 10). -/
def tableByte (nbits w i : Nat) : Byte := BitVec.ofNat 8 ((w % 2 ^ nbits) >>> (8 * i))

/-- The operand length of the instruction a table word stands for: what its opcode's format requires (R84), zero bytes
for PUSH and for an illegal opcode, and no fewer than the word itself holds (log 10). -/
def tableOperandLength (nbits : Nat) (op : Byte) : Nat :=
  max (nbits / 8 - 1) (((Opcode.ofByte op).bind fun k => k.format.length).getD 0)

/-- The transaction a table word stands for, every bit above `nbits` zero (log 10). -/
def tableCommand (nbits w : Nat) : Command :=
  let op := tableByte nbits w 0
  { op := op, opnd := (List.range (tableOperandLength nbits op)).map fun i => tableByte nbits w (1 + i) }

/-- The instruction the decoder reads from a table word. -/
def decodeTableWord (nbits w : Nat) : Option Instr :=
  match decode (tableCommand nbits w) with
  | .ok i => some i
  | .error _ => Option.none

end Sys2Proof
end

