-- ==== Sys2Proof/Machine/State.lean ====
section
/-! DEFINITION. The state of one block instance as plain data (10_state.md R30, R36, R41, R45), the status codes
(60_exceptions.md R170), the reasons a step could stop, and the state right after reset (70_reset_and_hazards.md R190). -/

namespace Sys2Proof.Machine

/-- The status of a response (R170). -/
inductive Status where
  /-- 0x00: the command succeeded. -/
  | ok
  /-- 0x01: F[0] is not the header sentinel; VALIDATE and PARSE, one payload byte. -/
  | invalidHeader
  /-- 0x02: F[24] is no accepted footer; VALIDATE and PARSE, one payload byte. -/
  | invalidFooter
  /-- 0x03: NEXT with nothing buffered. -/
  | emptyBuffer
  /-- 0x04: NEXT, too few bytes and no candidate rejected. -/
  | incompleteData
  /-- 0x05: NEXT, too few bytes after a rejected candidate. -/
  | invalidFrame
  /-- 0x06: PUSH of a block that does not fit. -/
  | bufferOverflow
  /-- 0x07: kept for the host's reader adapter; the block never produces it (R184). -/
  | readError
  /-- 0x08: the opcode is not in the map. -/
  | illegalCommand
  /-- 0x09: the operand length is wrong. -/
  | malformedCommand
  deriving DecidableEq, Repr

/-- One response transaction (30_encoding.md R79): a status and a result byte string. -/
structure Response where
  status : Status
  result : List Byte
  deriving DecidableEq, Repr

/-- The ring's cells as (index, byte) pairs, indices strictly rising. An index that is not listed has never been
written (log 3). -/
abbrev Memory := List Host.Cell

/-- One block instance. Persistent state: `ring`, `rd`, `wr` (R30) and the configuration (R36, R45).
Interface: `program`, the commands the host has still to issue, and `responses`, those delivered (R41, R200; log 1). -/
structure State where
  /-- CAPACITY and FOOTER_RULE; no command writes them (R191). -/
  cfg : Config
  /-- `Ring[0..C-1]` (R30, R50). -/
  ring : Memory
  /-- Read cursor: the index of the oldest buffered byte (R30). -/
  rd : Nat
  /-- Write cursor: the index of the cell the next pushed byte goes to (R30). -/
  wr : Nat
  /-- Commands still to be issued, oldest first (R35, R41). -/
  program : List Command
  /-- Responses delivered, oldest first (R41, R200). -/
  responses : List Response
  deriving DecidableEq, Repr

/-- Nothing raises a fault: "A model needs no fault outcome for this block" (R173). The type is empty, so no step can
end in one. Safe: there is nothing to reach. -/
inductive Fault where
  deriving DecidableEq, Repr

/-- The reasons for a refusal. -/
inductive Refusal where
  /-- Raised by an arm of `exec` whose instruction has no meaning yet; no arm is left so. Safe. -/
  | notModelled (mnemonic : String)
  /-- Raised by the response decoder only, never by a step: a status byte the block never produces (30_encoding.md
  R83, 60_exceptions.md R173). Safe: it stops a reader of responses, not the block. -/
  | statusNeverProduced (code : Byte)
  /-- Raised by the response decoder only, never by a step: a response transaction without its status byte (R79). Safe. -/
  | noStatusByte
  deriving DecidableEq, Repr

/-- The creation of an instance (R190) with a given configuration, fixed before it (R191): both cursors 0 (R45) and
every ring cell unspecified, so none is listed (log 3); nothing issued, nothing delivered. -/
def State.resetWith (c : Config) : State :=
  { cfg := c, ring := [], rd := 0, wr := 0, program := [], responses := [] }

/-- The machine right after reset, with this hardware's configuration (R7, R8, R190). -/
def State.reset : State := State.resetWith Config.hardware

end Sys2Proof.Machine
end

