-- ==== Sys2Proof/Machine/Ops.lean ====
section
/-! DEFINITION. The shared operations: ring cells (20_memory.md R50 to R52), cursors (10_state.md R31 to R33), responding
and raising (00_scope.md R11), and the status codes (60_exceptions.md R170). -/

namespace Sys2Proof.Machine

/-! ### Ring cells -/

/-- The memory's canonical form: indices strictly rising. An unlisted cell has no written value, so no entry can equal
what an unlisted index reads as (log 3). -/
def Memory.wf : Memory → Bool
  | [] => true
  | [_] => true
  | x :: y :: m => decide (x.1 < y.1) && Memory.wf (y :: m)

/-- The byte last written to cell `a`, if any. -/
def Memory.read? : Memory → Nat → Option Byte
  | [], _ => none
  | c :: m, a => if c.1 = a then some c.2 else Memory.read? m a

/-- `MemRead(a, 1)` (R11). A cell that was never written holds the free value `Config.staleByte a` (R45; log 3). -/
def Memory.read (m : Memory) (a : Nat) : Byte := (m.read? a).getD (Config.staleByte a)

/-- `MemWrite(a, 1, v)` (R11). -/
def Memory.write : Memory → Nat → Byte → Memory
  | [], a, v => [(a, v)]
  | c :: m, a, v =>
    if a < c.1 then (a, v) :: c :: m
    else if c.1 = a then (a, v) :: m
    else c :: Memory.write m a v

/-! ### Cursors -/

/-- `(wr - rd) mod C` with the non-negative remainder (R10, R31). -/
def occupancy (c rd wr : Nat) : Nat := (((wr : Int) - (rd : Int)) % (c : Int)).toNat

/-- `avail()` (R31). -/
def State.avail (s : State) : Nat := occupancy s.cfg.capacity s.rd s.wr

/-- The ring index of byte `k` of the live window (R52). -/
def State.cellIndex (s : State) (k : Nat) : Nat := (s.rd + k) % s.cfg.capacity

/-- Byte `k` of the live window (R52). -/
def State.windowByte (s : State) (k : Nat) : Byte := s.ring.read (s.cellIndex k)

/-- The live window, oldest byte first (R32). -/
def State.window (s : State) : List Byte := (List.range s.avail).map s.windowByte

/-- `rd <- (rd + n) mod C`. -/
def State.advanceRd (s : State) (n : Nat) : State := { s with rd := (s.rd + n) % s.cfg.capacity }

/-- `MemWrite(wr, 1, b); wr <- (wr + 1) mod C` (R51). -/
def State.pushByte (s : State) (b : Byte) : State :=
  { s with ring := s.ring.write s.wr b, wr := (s.wr + 1) % s.cfg.capacity }

/-- The writes of one accepted PUSH, in operand order (R51). -/
def State.pushBytes (s : State) (bs : List Byte) : State := bs.foldl State.pushByte s

/-- The width of a cursor register: `ceil(log2 C)` bits (R33). -/
def cursorBits (c : Nat) : Nat := Nat.clog 2 c

/-! ### Commands and responses -/

/-- The host has issued its next command; `rest` is what it has still to issue (R41). -/
def State.issue (s : State) (rest : List Command) : State := { s with program := rest }

/-- `respond S(payload)` (R11): the response is delivered and the command ends. -/
def State.respond (s : State) (st : Status) (res : List Byte) : State :=
  { s with responses := s.responses ++ [{ status := st, result := res }] }

/-- `raise E(info)` (R11): `respond E(info)` and nothing else. State written earlier in the command is kept, no mode,
cursor or record changes, and no control is transferred (60_exceptions.md R171, R175). There is no return from it (R176). -/
def State.raise (s : State) (e : Status) (info : List Byte) : State := s.respond e info

/-- A legal opcode with a wrong operand length (30_encoding.md R82). -/
def State.raiseMalformed (s : State) : State := s.raise .malformedCommand []

/-- An opcode outside the map (30_encoding.md R81). -/
def State.raiseIllegal (s : State) : State := s.raise .illegalCommand []

/-- What a transaction that is no command does (R81, R82). -/
def State.rejectCommand (s : State) : DecodeError → State
  | .illegal _ => s.raiseIllegal
  | .malformed _ _ => s.raiseMalformed

/-- A command whose operand must have its format's length (R82, R174): the length check comes before the command. -/
def State.ifWellFormed (s : State) (i : Instr) (run : State) : State :=
  if i.wellFormed then run else s.raiseMalformed

/-! ### Status codes -/

/-- The status byte of a response (R170). -/
def Status.code : Status → Byte
  | .ok => 0x00
  | .invalidHeader => 0x01
  | .invalidFooter => 0x02
  | .emptyBuffer => 0x03
  | .incompleteData => 0x04
  | .invalidFrame => 0x05
  | .bufferOverflow => 0x06
  | .readError => 0x07
  | .illegalCommand => 0x08
  | .malformedCommand => 0x09

/-- The statuses the block produces: all of R170's table but READ_ERROR (R83, R184). -/
def Status.produced : List Status :=
  [.ok, .invalidHeader, .invalidFooter, .emptyBuffer, .incompleteData, .invalidFrame, .bufferOverflow,
    .illegalCommand, .malformedCommand]

/-- The status of a status byte; nothing for a value the block never produces (R83). -/
def Status.ofByte (b : Byte) : Option Status := Status.produced.find? fun st => st.code == b

/-- A response on the response channel (30_encoding.md R79): the status byte, then the result bytes. -/
def Response.bytes (r : Response) : List Byte := r.status.code :: r.result

/-- The response decoder (R83): any status value the block never produces is a refusal. -/
def decodeResponse : List Byte → Except Refusal Response
  | [] => .error .noStatusByte
  | b :: res =>
    match Status.ofByte b with
    | some st => .ok { status := st, result := res }
    | none => .error (.statusNeverProduced b)

end Sys2Proof.Machine
end

