-- ==== Sys2Proof/Machine/Codec.lean ====
section
/-! DEFINITION. The FrameCodec: DECODE, ENCODE, DECODE_FLAGS and ENCODE_FRAME (41_codec.md R110 to R118). -/

namespace Sys2Proof.Machine

/-- The payload as one 176-bit unsigned integer P (20_memory.md R53). -/
def payloadInt (p : List Byte) : Nat := packFields 8 (p.map BitVec.toNat)

/-- `decode_channels(F)` (R110): `ch[i] = (P >> (11*i)) & 0x7FF` for i = 0 to 15. Only F[1..22] is read. -/
def decodeChannels (F : Frame) : List U16 :=
  (List.range channelCount).map fun i => BitVec.ofNat 16 (fieldAt channelBits (payloadInt F.payload) i)

/-- The low 11 bits of a channel value (R113): truncation, no saturation. -/
def truncateChannel (v : U16) : Nat := v.toNat &&& 0x7FF

/-- `encode_payload(ch_in)` (R112), in the rule's second form: `P <- sum of ((ch_in[i] & 0x7FF) << (11*i))`, then
`p[k] <- P[8k+7 : 8k]` for k = 0 to 21. -/
def encodePayload (ch : List U16) : List Byte :=
  let P := packFields channelBits (ch.map truncateChannel)
  (List.range payloadLength).map fun k => BitVec.ofNat 8 (fieldAt 8 P k)

/-- `encode_frame(ch_in, f)` (R115): the sentinels, the payload, and the low four flag bits. -/
def encodeFrame (ch : List U16) (f : Byte) : Frame :=
  { header := headerSentinel, payload := encodePayload ch, flagByte := encodeFlags f, footer := footerSentinel }

/-- The Packet of a frame (43_parse.md R160, 42_synchronizer.md R138). -/
def framePacket (F : Frame) : Packet := { channels := decodeChannels F, flags := decodeFlags F.flagByte }

/-- DECODE F (R110): no validation. -/
def execDecode (F : Frame) (s : State) : Host.Outcome State Fault Refusal :=
  .next (s.ifWellFormed (.decode F) (s.respond .ok (channelBytes (decodeChannels F))))

/-- ENCODE ch (R112). -/
def execEncode (ch : List U16) (s : State) : Host.Outcome State Fault Refusal :=
  .next (s.ifWellFormed (.encode ch) (s.respond .ok (encodePayload ch)))

/-- DECODE_FLAGS b (R114). -/
def execDecodeFlags (b : Byte) (s : State) : Host.Outcome State Fault Refusal :=
  .next (s.respond .ok [flagsByte (decodeFlags b)])

/-- ENCODE_FRAME ch ; f (R115). -/
def execEncodeFrame (ch : List U16) (f : Byte) (s : State) : Host.Outcome State Fault Refusal :=
  .next (s.ifWellFormed (.encodeFrame ch f) (s.respond .ok (encodeFrame ch f).bytes))

end Sys2Proof.Machine
end

