-- ==== Sys2Proof/Machine/Validator.lean ====
section
/-! DEFINITION. The FrameValidator and VALIDATE (40_validator.md R100 to R105). -/

namespace Sys2Proof.Machine

/-- The outcome of `validate` (R100). -/
inductive Validation where
  | ok
  | invalidHeader (b : Byte)
  | invalidFooter (b : Byte)
  deriving DecidableEq, Repr

/-- `footer_ok(b)` (30_encoding.md R74). -/
def footerOk (r : FooterRule) (b : Byte) : Bool :=
  match r with
  | .strict => b == footerSentinel
  | .lowNibble04 => b == footerSentinel || (b &&& 0x0F) == altFooterNibble

/-- `validate(F)` (R100): the header is checked first (R101), and nothing but the two sentinels is read (R102). -/
def validate (r : FooterRule) (F : Frame) : Validation :=
  if F.header ≠ headerSentinel then .invalidHeader F.header
  else if footerOk r F.footer then .ok
  else .invalidFooter F.footer

/-- The response to a failed validation carries the offending byte (00_scope.md R9, R104); `k` is what a passed one does. -/
def State.afterValidation (s : State) (v : Validation) (k : State) : State :=
  match v with
  | .ok => k
  | .invalidHeader b => s.raise .invalidHeader [b]
  | .invalidFooter b => s.raise .invalidFooter [b]

/-- VALIDATE F (R103). -/
def execValidate (F : Frame) (s : State) : Host.Outcome State Fault Refusal :=
  .next (s.ifWellFormed (.validate F) (s.afterValidation (validate s.cfg.footerRule F) (s.respond .ok [])))

end Sys2Proof.Machine
end

