-- ==== Sys2Proof/Machine/Parse.lean ====
section
/-! DEFINITION. PARSE, the validate-then-decode step of the FrameReader (43_parse.md R160 to R162). -/

namespace Sys2Proof.Machine

/-- PARSE F (R160): no resynchronisation, and nothing is decoded on an error. -/
def execParse (F : Frame) (s : State) : Host.Outcome State Fault Refusal :=
  .next (s.ifWellFormed (.parse F)
    (s.afterValidation (validate s.cfg.footerRule F) (s.respond .ok (packetBytes (framePacket F)))))

end Sys2Proof.Machine
end

