-- ==== Sys2Proof/Machine/Synchronizer.lean ====
section
/-! DEFINITION. The StreamSynchronizer: PUSH, NEXT and STATUS (42_synchronizer.md R130 to R147). -/

namespace Sys2Proof.Machine

/-- PUSH block (R130): the capacity check on the whole block comes first (R131), then every byte is written. -/
def execPush (block : List Byte) (s : State) : Host.Outcome State Fault Refusal :=
  if s.avail + block.length > s.cfg.capacity - 1 then .next (s.raise .bufferOverflow [])
  else .next ((s.pushBytes block).respond .ok [])

/-- SEEK_HEADER (R135): discard the front byte while at least 25 are buffered and it is not 0x0F.
The fuel is the number of discards allowed; `avail()` of them always suffice (R141; log 6). -/
def seekHeader : Nat → State → State
  | 0, s => s
  | fuel + 1, s =>
    if 25 ≤ s.avail ∧ s.windowByte 0 ≠ headerSentinel then seekHeader fuel (s.advanceRd 1) else s

/-- The candidate window copied into the frame buffer F (R137, 20_memory.md R52). -/
def State.candidate (s : State) : Frame := Frame.ofWindow s.windowByte

/-- NEXT stops without a frame (R140). -/
def State.raiseNoFrame (s : State) (rejected : Bool) : State :=
  s.raise (if rejected then .invalidFrame else .incompleteData) []

/-- The loop of NEXT (R133): SEEK_HEADER, ACCUMULATE (R136), VALIDATE (R137), then EMIT (R138) or RESYNC (R139).
The fuel is the number of passes allowed; `avail() + 1` of them always suffice (R141; log 6). -/
def searchFrame : Nat → Bool → State → State
  | 0, rejected, s => s.raiseNoFrame rejected
  | fuel + 1, rejected, s =>
    let t := seekHeader s.avail s
    if t.avail < 25 then t.raiseNoFrame rejected
    else if validate t.cfg.footerRule t.candidate = .ok then
      (t.advanceRd 25).respond .ok (packetBytes (framePacket t.candidate))
    else searchFrame fuel true (t.advanceRd 1)

/-- NEXT (R133): EMPTY_BUFFER is checked first and only then (R134). -/
def execNext (s : State) : Host.Outcome State Fault Refusal :=
  if s.avail = 0 then .next (s.raise .emptyBuffer [])
  else .next (searchFrame (s.avail + 1) false s)

/-- The FOOTER_RULE field of the STATUS view (10_state.md R36). -/
def footerRuleByte (r : FooterRule) : Byte :=
  match r with
  | .strict => 0
  | .lowNibble04 => 1

/-- The two little-endian bytes of a 16-bit STATUS field (20_memory.md R54, R144). -/
def statusField (n : Nat) : List Byte := u16Bytes (BitVec.ofNat 16 n)

/-- STATUS (R144): AVAILABLE, CAPACITY and FOOTER_RULE. -/
def execStatus (s : State) : Host.Outcome State Fault Refusal :=
  .next (s.respond .ok (statusField s.avail ++ statusField s.cfg.capacity ++ [footerRuleByte s.cfg.footerRule]))

end Sys2Proof.Machine
end

