-- ==== Sys2Proof/Machine/Dispatch.lean ====
section
/-! DEFINITION. One arm per command of the opcode map (30_encoding.md R80). -/

namespace Sys2Proof.Machine

def exec (i : Instr) (s : State) : Host.Outcome State Fault Refusal :=
  match i with
  | .validate F => Sys2Proof.Machine.execValidate F s
  | .decode F => Sys2Proof.Machine.execDecode F s
  | .encode ch => Sys2Proof.Machine.execEncode ch s
  | .decodeFlags b => Sys2Proof.Machine.execDecodeFlags b s
  | .encodeFrame ch f => Sys2Proof.Machine.execEncodeFrame ch f s
  | .parse F => Sys2Proof.Machine.execParse F s
  | .push block => Sys2Proof.Machine.execPush block s
  | .next => Sys2Proof.Machine.execNext s
  | .status => Sys2Proof.Machine.execStatus s

end Sys2Proof.Machine
end

