-- ==== Sys2Proof/Machine/Step.lean ====
section
/-! DEFINITION. One step: the host issues its next command and the block answers it (10_state.md R40, R41). -/

namespace Sys2Proof.Machine

/-- One command, atomically (R40, R58): take the next transaction from the command channel, decode it (R174), and do
what it says. With nothing to issue the block stays as it is (log 2). -/
def step (s : State) : Host.Outcome State Fault Refusal :=
  match s.program with
  | [] => .next s
  | c :: rest =>
    match decode c with
    | .ok i => exec i (s.issue rest)
    | .error e => .next ((s.issue rest).rejectCommand e)

/-- The host will issue the instruction of a table word next, ahead of what it still has to issue (log 9). -/
def State.withFetchWord (s : State) (nbits w : Nat) : State :=
  { s with program := tableCommand nbits w :: s.program }

end Sys2Proof.Machine
end

