-- ==== Sys2Proof/Machine/Instances.lean ====
section
/-! DEFINITION. Several instances of the block side by side (10_state.md R44, 60_exceptions.md R182): each has its own
state, and one of them steps at a time (log 12). -/

namespace Sys2Proof.Machine

/-- The instances, in the order of their creation; they have no identifiers of their own (R182). -/
abbrev Instances := List State

/-- A new instance starts at its own reset (R182, R190). -/
def Instances.create (all : Instances) (c : Config) : Instances := all ++ [State.resetWith c]

/-- Instance `k` performs one step; where there is no such instance nothing happens. -/
def Instances.step (all : Instances) (k : Nat) : Host.Outcome Instances Fault Refusal :=
  match all[k]? with
  | none => .next all
  | some s =>
    match Sys2Proof.Machine.step s with
    | .next t => .next (all.set k t)
    | .fault f => .fault f
    | .refused r => .refused r

end Sys2Proof.Machine
end

