-- ==== Sys2Proof/Machine/Listing.lean ====
section
/-! DEFINITION. Listings of host programs (30_encoding.md R85, R86): the encoding of a program, the frame literals, and
the text of a line (log 14). -/

namespace Sys2Proof.Machine

/-- A program's commands, in line order (R85). -/
def assemble (lines : List Instr) : List Command := lines.map encode

/-- The literal `FRAME` of channels and a flags byte: the 25 bytes that ENCODE_FRAME returns (R86). -/
def frameLiteral (ch : List U16) (f : Byte) : List Byte := (encodeFrame ch f).bytes

/-- The literal `FRAME0` (R86). -/
def frame0 : List Byte := frameLiteral (List.replicate channelCount 0) 0x00

/-- The mnemonic of a row (R80). -/
def mnemonic : Opcode → String
  | .validate => "VALIDATE"
  | .decode => "DECODE"
  | .encode => "ENCODE"
  | .decodeFlags => "DECODE_FLAGS"
  | .encodeFrame => "ENCODE_FRAME"
  | .parse => "PARSE"
  | .push => "PUSH"
  | .next => "NEXT"
  | .status => "STATUS"

/-- A hex digit. -/
def hexDigit (n : Nat) : Char := ("0123456789ABCDEF".toList).getD n '0'

/-- A byte as two hex digits (R10). -/
def hexByte (b : Byte) : String := String.ofList [hexDigit (b.toNat / 16), hexDigit (b.toNat % 16)]

/-- One byte as a value of its own: `0x..` (R10, as in 95_test_vectors.md P4). -/
def hexValue (b : Byte) : String := "0x" ++ hexByte b

/-- A byte string: space-separated hex bytes, first byte first (R10). -/
def hexBytes (bs : List Byte) : String := " ".intercalate (bs.map hexByte)

/-- A channel array: decimal values, channel 0 first (R85). -/
def channelText (ch : List U16) : String := ", ".intercalate (ch.map fun v => toString v.toNat)

/-- The operands of a listing line (R85). -/
def operandText : Instr → String
  | .validate F => hexBytes F.bytes
  | .decode F => hexBytes F.bytes
  | .encode ch => channelText ch
  | .decodeFlags b => hexValue b
  | .encodeFrame ch f => channelText ch ++ " ; " ++ hexValue f
  | .parse F => hexBytes F.bytes
  | .push block => hexBytes block
  | .next => ""
  | .status => ""

/-- A listing line: the mnemonic, then the operands (R85). -/
def listingLine (i : Instr) : String :=
  if operandText i = "" then mnemonic i.opcode else mnemonic i.opcode ++ " " ++ operandText i

end Sys2Proof.Machine
end

