-- ==== Sys2Proof/Safety.lean ====
section
/-! DEFINITION. The terms claims are stated in: well-formed states, written live cells, what an observation reads, safe runs
(10_state.md R30 to R33, R39; 70_reset_and_hazards.md R192, R200), the offsets of the closed form of NEXT
(42_synchronizer.md R142), and the spec's own second spellings of the codec (30_encoding.md R72, 41_codec.md R112). No
command uses any of them. -/

namespace Sys2Proof.Machine

/-- A state of a block that exists: a legal configuration (R7), cursors in [0, C) (R30, R33), and a canonical ring all of
whose cells have an index in [0, C) (R50). -/
structure State.Wf (s : State) : Prop where
  legal : s.cfg.Legal
  rd_lt : s.rd < s.cfg.capacity
  wr_lt : s.wr < s.cfg.capacity
  ring_wf : s.ring.wf = true
  ring_lt : ∀ c ∈ s.ring, c.1 < s.cfg.capacity

/-- Every cell of the live window has been written (R39): no command can meet a stale cell. -/
def State.LiveWritten (s : State) : Prop := ∀ k, k < s.avail → s.ring.read? (s.cellIndex k) ≠ none

/-- What must hold of every state of a run (R192). -/
structure State.Inv (s : State) : Prop where
  wf : s.Wf
  live : s.LiveWritten

/-- What an observation of a run reads: the responses and avail(), never the cursors' absolute values and never a stale
cell (R200). -/
def State.observe (s : State) : List Response × Nat := (s.responses, s.avail)

/-- Two states of the same configuration with the same live window and the same traffic, wherever their cursors stand
and whatever their stale cells hold (R39, R45). -/
structure State.SameView (s t : State) : Prop where
  cfg : s.cfg = t.cfg
  window : s.window = t.window
  program : s.program = t.program
  responses : s.responses = t.responses

/-- `s` after exactly one more response and nothing else. -/
def State.answered (s : State) (st : Status) (res : List Byte) : State :=
  { s with responses := s.responses ++ [{ status := st, result := res }] }

/-- `j` is in Cand: a whole window starts at offset `j` of `W` with the header (42_synchronizer.md R142). -/
def Candidate (W : List Byte) (j : Nat) : Prop := j + 25 ≤ W.length ∧ W.getD j 0 = headerSentinel

/-- `j` is a candidate whose footer is accepted (R142). -/
def Accepted (r : FooterRule) (W : List Byte) (j : Nat) : Prop :=
  Candidate W j ∧ footerOk r (W.getD (j + 24) 0) = true

/-- `j` is the smallest accepted offset, `j*` of R142. -/
def FirstAccepted (r : FooterRule) (W : List Byte) (j : Nat) : Prop :=
  Accepted r W j ∧ ∀ i, i < j → ¬ Accepted r W i

/-- The frame `W[j..j+24]` (R142). -/
def frameAt (W : List Byte) (j : Nat) : Frame := Frame.ofWindow fun k => W.getD (j + k) 0

/-- `p[b >> 3] <- p[b >> 3] | (1 << (b & 7))` (R112). -/
def setPayloadBit (p : List Byte) (b : Nat) : List Byte :=
  p.set (b >>> 3) (p.getD (b >>> 3) 0 ||| ((1 : Byte) <<< (b &&& 7)))

/-- `encode_payload(ch_in)` in the first form of R112: zero-fill, then set one payload bit at a time. The commands
use the second form, `encodePayload`; an obligation says that the two agree. -/
def encodePayloadLoop (ch : List U16) : List Byte :=
  (List.range channelCount).foldl
    (fun p i => (List.range channelBits).foldl
      (fun p j => if (truncateChannel (ch.getD i 0)).testBit j then setPayloadBit p (11 * i + j) else p) p)
    (List.replicate payloadLength 0)

/-- The channels of a payload by the byte expressions of 30_encoding.md R72, every shift on unbounded integers. The
commands use `decodeChannels`; an obligation says that the two agree. -/
def channelByteForm (payload : List Byte) : List Nat :=
  let p := fun k => (payload.getD k 0).toNat
  [ (p 0 ||| (p 1 <<< 8)) &&& 0x7FF,
    ((p 1 >>> 3) ||| (p 2 <<< 5)) &&& 0x7FF,
    ((p 2 >>> 6) ||| (p 3 <<< 2) ||| (p 4 <<< 10)) &&& 0x7FF,
    ((p 4 >>> 1) ||| (p 5 <<< 7)) &&& 0x7FF,
    ((p 5 >>> 4) ||| (p 6 <<< 4)) &&& 0x7FF,
    ((p 6 >>> 7) ||| (p 7 <<< 1) ||| (p 8 <<< 9)) &&& 0x7FF,
    ((p 8 >>> 2) ||| (p 9 <<< 6)) &&& 0x7FF,
    ((p 9 >>> 5) ||| (p 10 <<< 3)) &&& 0x7FF,
    (p 11 ||| (p 12 <<< 8)) &&& 0x7FF,
    ((p 12 >>> 3) ||| (p 13 <<< 5)) &&& 0x7FF,
    ((p 13 >>> 6) ||| (p 14 <<< 2) ||| (p 15 <<< 10)) &&& 0x7FF,
    ((p 15 >>> 1) ||| (p 16 <<< 7)) &&& 0x7FF,
    ((p 16 >>> 4) ||| (p 17 <<< 4)) &&& 0x7FF,
    ((p 17 >>> 7) ||| (p 18 <<< 1) ||| (p 19 <<< 9)) &&& 0x7FF,
    ((p 19 >>> 2) ||| (p 20 <<< 6)) &&& 0x7FF,
    ((p 20 >>> 5) ||| (p 21 <<< 3)) &&& 0x7FF ]

/-- The effect of a list of commands applied one by one, in order (20_memory.md R62); it stops where a command does. -/
def applyAll : List Instr → State → Host.Outcome State Fault Refusal
  | [], s => .next s
  | i :: is, s =>
    match exec i s with
    | .next t => applyAll is t
    | .fault f => .fault f
    | .refused r => .refused r

/-- The start of a run (R200): reset, and the host has `commands` to issue. -/
def State.boot (c : Config) (commands : List Command) : State := { State.resetWith c with program := commands }

/-- A run of `commands` is safe: after any number of steps the machine has stopped nowhere and the invariant holds. -/
def SafeRun (c : Config) (commands : List Command) : Prop :=
  ∀ n, ∃ t, Host.Core.run Sys2Proof.core n (State.boot c commands) = .next t ∧ t.Inv

end Sys2Proof.Machine
end

