-- ==== Sys2Proof/Certificates/Slice0/Obligations.lean ====
section
/-! DEFINITION. The statements for the provers, from the numbered rules of spec/. `s.answered st res` is `s` with one more
response and every other field as before, so a statement that ends in it is a statement of the result and of the frame. -/

open Sys2Proof Sys2Proof.Machine

/-! ### Reset, configuration and the invariant -/

/-- R190 (derived): reset sets both cursors to 0, so the ring is empty, and the configuration is the configured one; this hardware's
is C = 50 and STRICT (R7, R8). (That no cell is listed at reset is the model's own way to hold unspecified contents, log 3:
not stated here.) -/
def Obligations.ResetEmptiesTheRing : Prop :=
  (∀ c : Config, 0 < c.capacity → (State.resetWith c).rd = 0 ∧ (State.resetWith c).wr = 0 ∧
    (State.resetWith c).avail = 0 ∧ (State.resetWith c).cfg = c) ∧
  State.reset = State.resetWith { capacity := 50, footerRule := .strict }

/-- R192 (derived; the invariant is the model's): the invariant holds at reset, whatever the legal configuration. -/
def Obligations.ResetMeetsTheInvariant : Prop :=
  ∀ c : Config, c.Legal → (State.resetWith c).Inv

/-- R33, R50 (derived): every step keeps the state well formed: the configuration legal, the cursors in [0, C), the ring
canonical with every index in [0, C). From every such state, not only from reset. -/
def Obligations.StepKeepsStateWellFormed : Prop :=
  ∀ s t : State, s.Wf → step s = .next t → t.Wf

/-- R39, R192 (derived): every step keeps the invariant, so no cell of the live window is ever a stale one. -/
def Obligations.StepKeepsLiveCellsWritten : Prop :=
  ∀ s t : State, s.Inv → step s = .next t → t.Inv

/-- R31 (and of R32 the bound and the window): avail() is (wr - rd) mod C, at most C - 1; the live window is the avail() bytes from rd, oldest first. -/
def Obligations.AvailIsTheCursorDistance : Prop :=
  ∀ s : State, s.Wf →
    (s.avail : Int) = ((s.wr : Int) - (s.rd : Int)) % (s.cfg.capacity : Int) ∧ s.avail ≤ s.cfg.capacity - 1 ∧
    s.window.length = s.avail ∧
    ∀ k, k < s.avail → s.window[k]? = some (s.ring.read ((s.rd + k) % s.cfg.capacity))

/-- R33 (derived): a cursor value fits in ceil(log2 C) bits, 6 bits at C = 50. -/
def Obligations.CursorsFitTheirRegisters : Prop :=
  (∀ s : State, s.Wf → s.rd < 2 ^ cursorBits s.cfg.capacity ∧ s.wr < 2 ^ cursorBits s.cfg.capacity) ∧
  cursorBits 50 = 6

/-- R191: no command writes CAPACITY or FOOTER_RULE. -/
def Obligations.ConfigurationNeverChanges : Prop :=
  ∀ s t : State, step s = .next t → t.cfg = s.cfg

/-! ### The step, and transactions that are no command -/

/-- The command at the head of the channel is issued, decoded and executed, and nothing else happens around it
(10_state.md R40, R41; derived). -/
def Obligations.StepRunsTheDecodedCommand : Prop :=
  ∀ (s : State) (c : Command) (rest : List Command) (i : Instr),
    s.program = c :: rest → decode c = .ok i → step s = exec i { s with program := rest }

/-- THE MODEL'S CHOICE (log 2): with nothing to issue, the block stays as it is. -/
def Obligations.IdleStepChangesNothing : Prop :=
  ∀ s : State, s.program = [] → step s = .next s

/-- R41 (derived): every command, whatever its bytes, gets exactly one response, and the next one is not touched before. -/
def Obligations.EveryCommandGetsOneResponse : Prop :=
  ∀ (s : State) (c : Command) (rest : List Command), s.program = c :: rest →
    ∃ (t : State) (r : Response), step s = .next t ∧ t.program = rest ∧ t.responses = s.responses ++ [r]

/-- R173 (derived): no command faults, hangs or refuses, in any state and for any operand, and neither does a step. -/
def Obligations.NothingFaultsOrRefuses : Prop :=
  (∀ (i : Instr) (s : State), ∃ t, exec i s = .next t) ∧ (∀ s : State, ∃ t, step s = .next t)

/-- R81: every opcode outside the map, 247 values, answers ILLEGAL_COMMAND (status 0x08) with no payload, whatever the
operand, and changes no state. -/
def Obligations.IllegalOpcodesAreAnswered : Prop :=
  (∀ (s : State) (op : Byte) (opnd : List Byte) (rest : List Command),
    s.program = { op := op, opnd := opnd } :: rest →
    (op.toNat = 0x00 ∨ (0x07 ≤ op.toNat ∧ op.toNat ≤ 0x0F) ∨ 0x13 ≤ op.toNat) →
    step s = .next (State.answered { s with program := rest } .illegalCommand [])) ∧
  ((List.range 256).filter fun n => (Opcode.ofByte (BitVec.ofNat 8 n)).isNone).length = 247 ∧
  Status.illegalCommand.code = 0x08

/-- R82: a legal opcode with a wrong operand length answers MALFORMED_COMMAND (status 0x09) with no payload and changes no
state; PUSH is never malformed. -/
def Obligations.WrongLengthsAreAnswered : Prop :=
  (∀ (s : State) (op : Byte) (opnd : List Byte) (rest : List Command),
    s.program = { op := op, opnd := opnd } :: rest →
    ((op = 0x01 ∨ op = 0x02 ∨ op = 0x06) ∧ opnd.length ≠ 25 ∨ op = 0x03 ∧ opnd.length ≠ 32 ∨
      op = 0x04 ∧ opnd.length ≠ 1 ∨ op = 0x05 ∧ opnd.length ≠ 33 ∨ (op = 0x11 ∨ op = 0x12) ∧ opnd.length ≠ 0) →
    step s = .next (State.answered { s with program := rest } .malformedCommand [])) ∧
  (∀ block : List Byte, decode { op := 0x10, opnd := block } = .ok (.push block)) ∧
  Status.malformedCommand.code = 0x09

/-- THE MODEL'S CHOICE (log 7, from R82): a term whose operand has the wrong length answers as its transaction would. -/
def Obligations.IllFormedTermsAnswerMalformed : Prop :=
  ∀ (i : Instr) (s : State), ¬ i.WellFormed → exec i s = .next (s.answered .malformedCommand [])

/-- R170, R80 (derived): the response of a well-formed command has the length its opcode and status give. -/
def Obligations.ResponseLengthsFollowTheTables : Prop :=
  ∀ (i : Instr) (s t : State), i.WellFormed → exec i s = .next t →
    ∃ r : Response, t.responses = s.responses ++ [r] ∧
      match r.status with
      | .ok => r.result.length =
          match i with
          | .validate _ => 0
          | .decode _ => 32
          | .encode _ => 22
          | .decodeFlags _ => 1
          | .encodeFrame _ _ => 25
          | .parse _ => 33
          | .push _ => 0
          | .next => 33
          | .status => 5
      | .invalidHeader => r.result.length = 1
      | .invalidFooter => r.result.length = 1
      | _ => r.result = []

/-- R170, R174 (derived): which command can answer which status. -/
def Obligations.StatusesComeFromTheirCommands : Prop :=
  ∀ (i : Instr) (s t : State), i.WellFormed → exec i s = .next t →
    ∃ r : Response, t.responses = s.responses ++ [r] ∧
      match i with
      | .validate _ => r.status = .ok ∨ r.status = .invalidHeader ∨ r.status = .invalidFooter
      | .decode _ => r.status = .ok
      | .encode _ => r.status = .ok
      | .decodeFlags _ => r.status = .ok
      | .encodeFrame _ _ => r.status = .ok
      | .parse _ => r.status = .ok ∨ r.status = .invalidHeader ∨ r.status = .invalidFooter
      | .push _ => r.status = .ok ∨ r.status = .bufferOverflow
      | .next => r.status = .ok ∨ r.status = .emptyBuffer ∨ r.status = .incompleteData ∨ r.status = .invalidFrame
      | .status => r.status = .ok

/-- R83: the block never produces 0x07 nor a status above 0x09, the response decoder reads every response the block
delivers, and it refuses 0x07 and every value from 0x0A on. -/
def Obligations.DeliveredStatusesAreInTheTable : Prop :=
  (∀ (s t : State) (c : Command) (rest : List Command), s.program = c :: rest → step s = .next t →
    ∃ r : Response, t.responses = s.responses ++ [r] ∧ r.status.code ≠ 0x07 ∧ r.status.code.toNat < 0x0A ∧
      decodeResponse r.bytes = .ok r) ∧
  ∀ (b : Byte) (res : List Byte), b = 0x07 ∨ 0x0A ≤ b.toNat →
    decodeResponse (b :: res) = .error (.statusNeverProduced b)

/-- R172 (derived: how far the cursor moves is not stated here): an error changes nothing but, for a NEXT that ends in INVALID_FRAME or INCOMPLETE_DATA, the read cursor. -/
def Obligations.ErrorsWriteOnlyTheReadCursorOfNext : Prop :=
  ∀ (s t : State) (c : Command) (rest : List Command) (r : Response), s.program = c :: rest → step s = .next t →
    t.responses = s.responses ++ [r] → r.status ≠ .ok →
    t = State.answered { s with program := rest } r.status r.result ∨
    (decode c = .ok .next ∧ (r.status = .invalidFrame ∨ r.status = .incompleteData) ∧
      t = { State.answered { s with program := rest } r.status r.result with rd := t.rd })

/-! ### Encodings -/

/-- Decode and encode agree (R75 to R77, R80; derived): decoding the encoding of a well-formed command gives it back, for
every command and every operand. -/
def Obligations.DecodeInvertsEncode : Prop :=
  ∀ i : Instr, i.WellFormed → decode (encode i) = .ok i

/-- Each transaction has one meaning (R75 to R77, R80; derived): what decodes is well formed and encodes to the very same
opcode and operand bytes. -/
def Obligations.EncodeInvertsDecode : Prop :=
  ∀ (c : Command) (i : Instr), decode c = .ok i → i.WellFormed ∧ encode i = c

/-- R84 (derived: its sentences on responses are another statement's): the length of each command, opcode byte included. -/
def Obligations.CommandLengthsFollowTheirFormats : Prop :=
  ∀ i : Instr, i.WellFormed → (encode i).bytes.length =
    match i with
    | .validate _ => 26
    | .decode _ => 26
    | .encode _ => 33
    | .decodeFlags _ => 2
    | .encodeFrame _ _ => 34
    | .parse _ => 26
    | .push block => 1 + block.length
    | .next => 1
    | .status => 1

/-- Words written out from R76, R77 and R80 decode to the commands they stand for (derived; a sanity check). -/
def Obligations.WrittenOutWordsDecode : Prop :=
  decode { op := 0x04, opnd := [0xF5] } = .ok (.decodeFlags 0xF5) ∧
  decode { op := 0x10, opnd := [0xAA, 0xBB, 0xCC] } = .ok (.push [0xAA, 0xBB, 0xCC]) ∧
  decode { op := 0x11, opnd := [] } = .ok .next ∧
  decode { op := 0x12, opnd := [] } = .ok .status ∧
  decode { op := 0x06, opnd := 0x0F :: (List.replicate 22 0x00 ++ [0x0A, 0x04]) } =
    .ok (.parse { header := 0x0F, payload := List.replicate 22 0x00, flagByte := 0x0A, footer := 0x04 }) ∧
  decode { op := 0x03, opnd := 0xFF :: 0x07 :: 0x00 :: 0x08 :: List.replicate 28 0x00 } =
    .ok (.encode (2047 :: 2048 :: List.replicate 14 0))

/-- R62, R85 (derived): a listing is run by issuing its lines in order, each on the state the one before left. -/
def Obligations.ListingRunsLineByLine : Prop :=
  ∀ (c : Config) (lines : List Instr), (∀ i ∈ lines, i.WellFormed) →
    ∃ t : State, applyAll lines (State.resetWith c) = .next t ∧
      Host.Core.run Sys2Proof.core lines.length (State.boot c (assemble lines)) = .next t

/-! ### FrameValidator -/

/-- R100, R101, R102 (and the result and frame of R103 and R104): VALIDATE checks the header, then the footer, reads nothing else
of the frame, and reports the offending byte; it changes nothing but the response. -/
def Obligations.ValidateChecksTheSentinels : Prop :=
  ∀ (F : Frame) (s : State), F.payload.length = 22 →
    exec (.validate F) s = .next (
      if F.header ≠ 0x0F then s.answered .invalidHeader [F.header]
      else if F.footer = 0x00 ∨ (s.cfg.footerRule = .lowNibble04 ∧ F.footer &&& 0x0F = 0x04) then s.answered .ok []
      else s.answered .invalidFooter [F.footer])

/-- R105: header and footer rejection are total: 255 headers, and 255 footers under STRICT or 239 under LOW_NIBBLE_04,
with any payload and flag byte. -/
def Obligations.SentinelRejectionIsTotal : Prop :=
  (∀ (r : FooterRule) (F : Frame), F.header ≠ 0x0F → validate r F = .invalidHeader F.header) ∧
  (∀ (r : FooterRule) (F : Frame), F.header = 0x0F → footerOk r F.footer = false →
    validate r F = .invalidFooter F.footer) ∧
  ((List.range 256).filter fun n => !footerOk .strict (BitVec.ofNat 8 n)).length = 255 ∧
  ((List.range 256).filter fun n => !footerOk .lowNibble04 (BitVec.ofNat 8 n)).length = 239 ∧
  ((List.range 256).filter fun n => decide ((BitVec.ofNat 8 n : Byte) ≠ 0x0F)).length = 255

/-- R74: the accepted footers under each rule, 1 and 17 values; this hardware's rule is STRICT. -/
def Obligations.AcceptedFootersFollowTheRule : Prop :=
  (∀ b : Byte, (footerOk .strict b = true ↔ b = 0x00) ∧
    (footerOk .lowNibble04 b = true ↔ b = 0x00 ∨ b &&& 0x0F = 0x04)) ∧
  ((List.range 256).filter fun n => footerOk .lowNibble04 (BitVec.ofNat 8 n)).length = 17 ∧
  State.reset.cfg.footerRule = .strict

/-! ### FrameCodec -/

/-- R72, R110 (derived from R71): DECODE of a frame answers the 16 values of the per-channel byte expressions, each as two
little-endian bytes, with no check of the sentinels, and changes nothing but the response. -/
def Obligations.DecodeFollowsTheByteExpressions : Prop :=
  ∀ (F : Frame) (s : State), F.payload.length = 22 →
    exec (.decode F) s = .next (s.answered .ok
      ((channelByteForm F.payload).flatMap fun v => [BitVec.ofNat 8 v, BitVec.ofNat 8 (v / 256)]))

/-- R71, R111: channel i is the 11-bit field from payload bit 11 i on, carried in a u16 whose bits 15:11 are 0. -/
def Obligations.ChannelBitsComeFromTheirPayloadBits : Prop :=
  ∀ F : Frame, F.payload.length = 22 → (decodeChannels F).length = 16 ∧
    ∀ i j, i < 16 → j < 16 →
      ((decodeChannels F).getD i 0).getLsbD j =
        (decide (j < 11) && (F.payload.getD ((11 * i + j) / 8) 0).getLsbD ((11 * i + j) % 8))

/-- R112 (derived; the result and frame, as the bit map in the direction of encoding): ENCODE answers 22 bytes whose bit 8 k + j is bit
b % 11 of channel b / 11 for b = 8 k + j, and changes nothing but the response. -/
def Obligations.EncodePlacesEveryChannelBit : Prop :=
  ∀ (ch : List U16) (s : State), ch.length = 16 →
    ∃ p : List Byte, p.length = 22 ∧ exec (.encode ch) s = .next (s.answered .ok p) ∧
      ∀ k j, k < 22 → j < 8 →
        (p.getD k 0).getLsbD j = (ch.getD ((8 * k + j) / 11) 0).getLsbD ((8 * k + j) % 11)

/-- R112 (derived): the bit-by-bit loop of the rule and its equivalent form give the same payload. -/
def Obligations.EncodeEqualsTheBitLoop : Prop :=
  ∀ ch : List U16, ch.length = 16 → encodePayload ch = encodePayloadLoop ch

/-- R113: encoding truncates to the low 11 bits, which is reduction mod 2048, with no saturation and no error. -/
def Obligations.EncodingTruncatesToElevenBits : Prop :=
  ∀ (ch : List U16) (s : State), ch.length = 16 →
    exec (.encode ch) s = exec (.encode (ch.map fun v => BitVec.ofNat 16 (v.toNat % 2048))) s ∧
    exec (.encode ch) s = .next (s.answered .ok (encodePayload (ch.map fun v => v &&& 0x7FF))) ∧
    ∀ f : Byte, exec (.encodeFrame ch f) s = exec (.encodeFrame (ch.map fun v => v &&& 0x7FF) f) s

/-- R114 (derived; result and frame): DECODE_FLAGS reports bits 0 to 3 and ignores bits 7:4; it changes nothing but the response. -/
def Obligations.DecodeFlagsReportsTheLowFourBits : Prop :=
  ∀ (b : Byte) (s : State), exec (.decodeFlags b) s = .next (s.answered .ok [b &&& 0x0F]) ∧
    decodeFlags b = { d1 := b.getLsbD 0, d2 := b.getLsbD 1, frameLost := b.getLsbD 2, failsafe := b.getLsbD 3 }

/-- R115 (derived; result and frame): ENCODE_FRAME answers the header, the payload of ENCODE, the low four flag bits and footer 0x00; the frame always
validates; nothing changes but the response. -/
def Obligations.EncodeFrameBuildsAValidFrame : Prop :=
  ∀ (ch : List U16) (f : Byte) (s : State), ch.length = 16 →
    exec (.encodeFrame ch f) s = .next (s.answered .ok (0x0F :: (encodePayload ch ++ [f &&& 0x0F, 0x00]))) ∧
    ∀ r : FooterRule, validate r (encodeFrame ch f) = .ok

/-- R116: the three round-trip laws. Channels: decoding an encoded payload gives each value's low 11 bits, with any sentinel
and flag bytes around it. Frames: PARSE of an encoded frame answers OK with the channels and flags. Payloads: encoding the
channels of a frame gives its payload back, so that decoding is a bijection from 22-byte payloads onto the arrays of sixteen
values up to 2047. -/
def Obligations.CodecRoundTripLaws : Prop :=
  (∀ (ch : List U16) (h x y : Byte), ch.length = 16 →
    decodeChannels { header := h, payload := encodePayload ch, flagByte := x, footer := y } =
      ch.map fun v => v &&& 0x7FF) ∧
  (∀ (ch : List U16) (f : Byte) (s : State), ch.length = 16 → (∀ v ∈ ch, v.toNat ≤ 2047) → f.toNat ≤ 15 →
    exec (.parse (encodeFrame ch f)) s = .next (s.answered .ok (channelBytes ch ++ [f]))) ∧
  (∀ F : Frame, F.payload.length = 22 → encodePayload (decodeChannels F) = F.payload) ∧
  (∀ F G : Frame, F.payload.length = 22 → G.payload.length = 22 → decodeChannels F = decodeChannels G →
    F.payload = G.payload) ∧
  (∀ ch : List U16, ch.length = 16 → (∀ v ∈ ch, v.toNat ≤ 2047) →
    ∃ F : Frame, F.payload.length = 22 ∧ decodeChannels F = ch)

/-- R117: a channel of a decode depends only on its own 11 payload bits, ENCODE writes a channel only into those, and one
channel or two adjacent ones at 2047 encode and decode with every other channel still 0. -/
def Obligations.ChannelsDoNotInterfere : Prop :=
  (∀ (F G : Frame) (i : Nat), i < 16 →
    (∀ b, 11 * i ≤ b → b ≤ 11 * i + 10 →
      (F.payload.getD (b / 8) 0).getLsbD (b % 8) = (G.payload.getD (b / 8) 0).getLsbD (b % 8)) →
    (decodeChannels F).getD i 0 = (decodeChannels G).getD i 0) ∧
  (∀ (ch : List U16) (i : Nat) (v : U16), ch.length = 16 → ∀ b, b < 176 → (b < 11 * i ∨ 11 * i + 10 < b) →
    ((encodePayload (ch.set i v)).getD (b / 8) 0).getLsbD (b % 8) = ((encodePayload ch).getD (b / 8) 0).getLsbD (b % 8)) ∧
  (∀ (F : Frame) (i k : Nat), i < 16 → (k = i ∨ k = i + 1) →
    F.payload = encodePayload (((List.replicate 16 (0 : U16)).set i 2047).set k 2047) →
    decodeChannels F = ((List.replicate 16 (0 : U16)).set i 2047).set k 2047)

/-! ### Aligned parse -/

/-- R160 (derived; result and frame): PARSE answers the first failing sentinel with its byte, or the Packet of the frame; it changes
nothing but the response. -/
def Obligations.ParseValidatesThenDecodes : Prop :=
  ∀ (F : Frame) (s : State), F.payload.length = 22 →
    exec (.parse F) s = .next (
      if F.header ≠ 0x0F then s.answered .invalidHeader [F.header]
      else if F.footer = 0x00 ∨ (s.cfg.footerRule = .lowNibble04 ∧ F.footer &&& 0x0F = 0x04) then
        s.answered .ok (channelBytes (decodeChannels F) ++ [F.flagByte &&& 0x0F])
      else s.answered .invalidFooter [F.footer])

/-- R162 (derived): a NEXT that emits a frame answers what PARSE of that frame answers. -/
def Obligations.ParseAndNextGiveTheSamePacket : Prop :=
  ∀ (s : State) (j : Nat), s.Wf → FirstAccepted s.cfg.footerRule s.window j →
    ∃ (t u : State) (res : List Byte), exec .next s = .next t ∧ exec (.parse (frameAt s.window j)) s = .next u ∧
      t.responses = s.responses ++ [{ status := .ok, result := res }] ∧
      u.responses = s.responses ++ [{ status := .ok, result := res }] ∧ res.length = 33

/-! ### PUSH -/

/-- R131, R51 (and the result and frame of R130): a block that fits is written whole, in operand order, at the write cursor, and is appended to the live
window; a block that does not fit changes nothing and answers BUFFER_OVERFLOW. Frame: the read cursor, the configuration,
what is still to be issued, and every cell but the written ones, `(wr + j) mod C` for j < n, are as before. -/
def Obligations.PushIsAllOrNothing : Prop :=
  ∀ (block : List Byte) (s : State), s.Wf →
    (s.avail + block.length > s.cfg.capacity - 1 → exec (.push block) s = .next (s.answered .bufferOverflow [])) ∧
    (s.avail + block.length ≤ s.cfg.capacity - 1 → ∃ t : State, exec (.push block) s = .next t ∧
      t.window = s.window ++ block ∧ t.avail = s.avail + block.length ∧
      t.wr = (s.wr + block.length) % s.cfg.capacity ∧ t.rd = s.rd ∧ t.cfg = s.cfg ∧ t.program = s.program ∧
      t.responses = s.responses ++ [{ status := .ok, result := [] }] ∧
      (∀ j, j < block.length → t.ring.read? ((s.wr + j) % s.cfg.capacity) = block[j]?) ∧
      (∀ a, (∀ j, j < block.length → a ≠ (s.wr + j) % s.cfg.capacity) →
        t.ring.read? a = s.ring.read? a ∧ t.ring.read a = s.ring.read a))

/-- R131, R58 (derived): the check is on the whole block before any byte is written: the answer is OK exactly when
avail() + n ≤ C - 1, so the block that fills the ring to C - 1 bytes fits and one byte more does not. -/
def Obligations.PushChecksTheWholeBlock : Prop :=
  ∀ (block : List Byte) (s : State), ∃ (t : State) (st : Status), exec (.push block) s = .next t ∧
    t.responses = s.responses ++ [{ status := st, result := [] }] ∧
    (st = .ok ↔ s.avail + block.length ≤ s.cfg.capacity - 1) ∧
    (st ≠ .ok → st = .bufferOverflow ∧ t = s.answered .bufferOverflow [])

/-- R132: PUSH of zero bytes answers OK and writes nothing, whatever the occupancy. -/
def Obligations.EmptyPushAlwaysSucceeds : Prop :=
  ∀ s : State, s.Wf → exec (.push []) s = .next (s.answered .ok [])

/-! ### NEXT -/

/-- R142: the closed form of NEXT, its four cases, each with the whole next state. -/
def Obligations.NextHasItsClosedForm : Prop :=
  ∀ s : State, s.Wf →
    (s.avail = 0 → exec .next s = .next (s.answered .emptyBuffer [])) ∧
    (∀ j, FirstAccepted s.cfg.footerRule s.window j →
      exec .next s = .next (State.answered { s with rd := (s.rd + j + 25) % s.cfg.capacity } .ok
        (channelBytes (decodeChannels (frameAt s.window j)) ++ [(frameAt s.window j).flagByte &&& 0x0F]))) ∧
    ((∀ j, ¬ Accepted s.cfg.footerRule s.window j) → 25 ≤ s.avail →
      ((∃ j, Candidate s.window j) →
        exec .next s = .next
          (State.answered { s with rd := (s.rd + s.avail - 24) % s.cfg.capacity } .invalidFrame [])) ∧
      ((∀ j, ¬ Candidate s.window j) →
        exec .next s = .next
          (State.answered { s with rd := (s.rd + s.avail - 24) % s.cfg.capacity } .incompleteData []))) ∧
    (1 ≤ s.avail → s.avail ≤ 24 →
      (∀ j, ¬ Candidate s.window j) ∧ exec .next s = .next (s.answered .incompleteData []))

/-- R134 (derived): EMPTY_BUFFER is answered when the ring is empty at the start, and then only. -/
def Obligations.EmptyBufferOnlyWhenNothingIsBuffered : Prop :=
  ∀ s : State, ∃ (t : State) (r : Response), exec .next s = .next t ∧ t.responses = s.responses ++ [r] ∧
    (r.status = .emptyBuffer ↔ s.avail = 0)

/-- R133 (derived; frame): in every state, NEXT writes the read cursor only: no cell, not the write cursor, not the
configuration, nothing of what is still to be issued. -/
def Obligations.NextWritesOnlyTheReadCursor : Prop :=
  ∀ s t : State, exec .next s = .next t →
    t.wr = s.wr ∧ t.cfg = s.cfg ∧ t.program = s.program ∧ (∀ a, t.ring.read? a = s.ring.read? a) ∧
    (∀ a, t.ring.read a = s.ring.read a) ∧ ∃ r, t.responses = s.responses ++ [r]

/-- R141 (derived: the bound on validation attempts is not stated, since no state counts them): NEXT consumes nothing
below 25 bytes; from 25 bytes on it emits a frame, or it stops with exactly 24 bytes left. -/
def Obligations.NextConsumesUnlessShort : Prop :=
  ∀ s : State, s.Wf → ∃ (t : State) (r : Response), exec .next s = .next t ∧ t.responses = s.responses ++ [r] ∧
    (s.avail < 25 → t.rd = s.rd ∧ t.window = s.window) ∧
    (25 ≤ s.avail → (r.status = .ok ∧ t.avail + 25 ≤ s.avail) ∨
      (r.status ≠ .ok ∧ t.avail = 24 ∧ t.window = s.window.drop (s.avail - 24)))

/-- R63 (derived): the ring is first-in first-out: bytes enter the live window at its back only, and only as the whole
operand of a PUSH, in order; they leave it at its front only, and only by a NEXT. (That a PUSH that fits is appended is
`PushIsAllOrNothing`.) -/
def Obligations.RingIsFirstInFirstOut : Prop :=
  ∀ s t : State, s.Wf → step s = .next t → ∃ (pushed : List Byte) (taken : Nat),
    t.window = (s.window ++ pushed).drop taken ∧
    (pushed ≠ [] → ∃ c rest, s.program = c :: rest ∧ decode c = .ok (.push pushed)) ∧
    (taken ≠ 0 → ∃ c rest, s.program = c :: rest ∧ decode c = .ok .next)

/-- R146: the resync property. With N leading bytes G before a valid frame V, NEXT emits V and moves past it if and only if
no offset j < N holds a header whose footer position holds an accepted footer; if one does, the first is emitted instead. -/
def Obligations.ResyncFindsTheFrame : Prop :=
  ∀ (s : State) (G : List Byte) (V : Frame), s.Wf → V.payload.length = 22 → validate s.cfg.footerRule V = .ok →
    s.window = G ++ V.bytes → G.length + 25 ≤ s.cfg.capacity - 1 →
    (exec .next s = .next (State.answered { s with rd := (s.rd + G.length + 25) % s.cfg.capacity } .ok
        (channelBytes (decodeChannels V) ++ [V.flagByte &&& 0x0F])) ↔
      ¬ ∃ j, j < G.length ∧ s.window.getD j 0 = 0x0F ∧
        footerOk s.cfg.footerRule (s.window.getD (j + 24) 0) = true) ∧
    ∀ j, j < G.length → FirstAccepted s.cfg.footerRule s.window j →
      exec .next s = .next (State.answered { s with rd := (s.rd + j + 25) % s.cfg.capacity } .ok
        (channelBytes (decodeChannels (frameAt s.window j)) ++ [(frameAt s.window j).flagByte &&& 0x0F]))

/-- R147: overflow safety (a refused block leaves every buffered byte, and the frame NEXT would emit, at whatever offset
`j`, is still emitted by the next NEXT) and consecutive frames (two frames back
to back, of the second of which `k` bytes fit and the rest are pushed after the first NEXT, are emitted by two NEXT
commands, in order). -/
def Obligations.OverflowSafetyAndConsecutiveFrames : Prop :=
  (∀ (s t : State) (block : List Byte) (j : Nat), s.Wf → FirstAccepted s.cfg.footerRule s.window j →
    s.avail + block.length > s.cfg.capacity - 1 → exec (.push block) s = .next t →
    t = s.answered .bufferOverflow [] ∧ t.window = s.window ∧
    exec .next t = .next (State.answered { t with rd := (t.rd + j + 25) % t.cfg.capacity } .ok
      (channelBytes (decodeChannels (frameAt s.window j)) ++ [(frameAt s.window j).flagByte &&& 0x0F]))) ∧
  (∀ (s : State) (V1 V2 : Frame) (k : Nat), s.Wf → V1.payload.length = 22 → V2.payload.length = 22 →
    validate s.cfg.footerRule V1 = .ok → validate s.cfg.footerRule V2 = .ok → k ≤ 25 →
    s.window = V1.bytes ++ V2.bytes.take k →
    ∃ t : State, applyAll [.next, .push (V2.bytes.drop k), .next] s = .next t ∧ t.window = [] ∧
      t.responses = s.responses ++
        [{ status := .ok, result := channelBytes (decodeChannels V1) ++ [V1.flagByte &&& 0x0F] },
         { status := .ok, result := [] },
         { status := .ok, result := channelBytes (decodeChannels V2) ++ [V2.flagByte &&& 0x0F] }])

/-- R145: progress. From 25 bytes on NEXT consumes at least one; with at most 24 buffered a PUSH of up to C - 25 bytes
succeeds; at C = 50 every NEXT leaves at most 24 bytes, so a PUSH of at most 25 bytes after it always succeeds. -/
def Obligations.PushAndNextAlwaysMakeProgress : Prop :=
  ∀ s : State, s.Wf →
    (25 ≤ s.avail → ∃ t, exec .next s = .next t ∧ t.avail < s.avail) ∧
    (s.avail ≤ 24 → ∀ block : List Byte, block.length ≤ s.cfg.capacity - 25 → ∃ t, exec (.push block) s = .next t ∧
      t.responses = s.responses ++ [{ status := .ok, result := [] }]) ∧
    (s.cfg.capacity = 50 → ∃ t, exec .next s = .next t ∧ t.avail ≤ 24 ∧
      ∀ block : List Byte, block.length ≤ 25 → ∃ u, exec (.push block) t = .next u ∧
        u.responses = t.responses ++ [{ status := .ok, result := [] }])

/-! ### STATUS -/

/-- R144, R36 (derived; result and frame): STATUS answers AVAILABLE and CAPACITY as little-endian u16 and FOOTER_RULE as 0 or 1, no bit of them lost, and
changes nothing but the response. -/
def Obligations.StatusReportsOccupancyAndConfiguration : Prop :=
  ∀ s : State, s.Wf →
    exec .status s = .next (s.answered .ok
      [BitVec.ofNat 8 s.avail, BitVec.ofNat 8 (s.avail / 256), BitVec.ofNat 8 s.cfg.capacity,
        BitVec.ofNat 8 (s.cfg.capacity / 256), if s.cfg.footerRule = .strict then 0 else 1]) ∧
    s.avail < 65536 ∧ s.cfg.capacity < 65536

/-! ### What commands can touch and learn -/

/-- R34, R59 (derived): VALIDATE, DECODE, ENCODE, DECODE_FLAGS, ENCODE_FRAME and PARSE, in every form, change nothing but the
response, and the response does not depend on the ring or the cursors: two states with the same FOOTER_RULE get the same. -/
def Obligations.StatelessCommandsIgnoreTheRing : Prop :=
  ∀ i : Instr, i.opcode ≠ .push → i.opcode ≠ .next → i.opcode ≠ .status → ∀ s t : State,
    s.cfg.footerRule = t.cfg.footerRule →
    ∃ (st : Status) (res : List Byte), exec i s = .next (s.answered st res) ∧ exec i t = .next (t.answered st res)

/-- R50 (derived): only PUSH writes the ring and the write cursor, and only NEXT writes the read cursor. -/
def Obligations.OnlyPushAndNextWriteTheirState : Prop :=
  ∀ s t : State, step s = .next t →
    (t.ring ≠ s.ring ∨ t.wr ≠ s.wr → ∃ c rest block, s.program = c :: rest ∧ decode c = .ok (.push block)) ∧
    (t.rd ≠ s.rd → ∃ c rest, s.program = c :: rest ∧ decode c = .ok .next)

/-- R39 (derived): stale content is never observable: two states that differ only in stale cells and in where the cursors stand give
the same responses and the same avail() after a step, and differ again only there. -/
def Obligations.StaleCellsAreNeverObservable : Prop :=
  ∀ s t : State, s.Wf → t.Wf → s.SameView t → ∃ s' t' : State, step s = .next s' ∧ step t = .next t' ∧
    s'.SameView t' ∧ s'.observe = t'.observe

/-- R44, R182 (derived): a step of one instance changes no other and runs that one as it would run alone. -/
def Obligations.InstancesAreIndependent : Prop :=
  ∀ (all : Instances) (k : Nat) (s : State), all[k]? = some s → ∃ (all' : Instances) (t : State),
    all.step k = .next all' ∧ step s = .next t ∧ all'[k]? = some t ∧ all'.length = all.length ∧
    ∀ j, j ≠ k → all'[j]? = all[j]?

/-! ### Runs -/

/-- R200, R41 (derived): a run of n commands from reset ends after n steps, with nothing left to issue and n responses. -/
def Obligations.RunsEndWithOneResponsePerCommand : Prop :=
  ∀ (c : Config) (commands : List Command), ∃ t : State,
    Host.Core.run Sys2Proof.core commands.length (State.boot c commands) = .next t ∧ t.program = [] ∧
    t.responses.length = commands.length

/-- R173, R39 (derived): every run of every command sequence, in every legal configuration, stops nowhere and meets the
invariant after every number of steps. -/
def Obligations.EveryRunIsSafe : Prop :=
  ∀ (c : Config) (commands : List Command), c.Legal → SafeRun c commands
end

