-- ==== Sys2Proof/Laws/WellFormed.lean ====
section
/-! SUPPORT. What well-formedness says of each command, one lemma per constructor of `Instr`. -/

namespace Sys2Proof

@[simp] theorem Frame.wellFormed_iff (F : Frame) : F.WellFormed ↔ F.payload.length = 22 := Iff.rfl

@[simp] theorem Instr.wellFormed_validate (F : Frame) : (Instr.validate F).WellFormed ↔ F.payload.length = 22 := by
  simp [Instr.WellFormed, Instr.wellFormed]

@[simp] theorem Instr.wellFormed_decode (F : Frame) : (Instr.decode F).WellFormed ↔ F.payload.length = 22 := by
  simp [Instr.WellFormed, Instr.wellFormed]

@[simp] theorem Instr.wellFormed_encode (ch : List U16) : (Instr.encode ch).WellFormed ↔ ch.length = 16 := by
  simp [Instr.WellFormed, Instr.wellFormed]

@[simp] theorem Instr.wellFormed_decodeFlags (b : Byte) : (Instr.decodeFlags b).WellFormed := rfl

@[simp] theorem Instr.wellFormed_encodeFrame (ch : List U16) (f : Byte) :
    (Instr.encodeFrame ch f).WellFormed ↔ ch.length = 16 := by
  simp [Instr.WellFormed, Instr.wellFormed]

@[simp] theorem Instr.wellFormed_parse (F : Frame) : (Instr.parse F).WellFormed ↔ F.payload.length = 22 := by
  simp [Instr.WellFormed, Instr.wellFormed]

@[simp] theorem Instr.wellFormed_push (block : List Byte) : (Instr.push block).WellFormed := rfl

@[simp] theorem Instr.wellFormed_next : Instr.next.WellFormed := rfl

@[simp] theorem Instr.wellFormed_status : Instr.status.WellFormed := rfl

end Sys2Proof
end

