-- ==== Sys2Proof/Laws/Codec.lean ====
section
/-! SUPPORT. The little-endian bitstream: fields packed into an integer and taken out of it again, bit by bit
(20_memory.md R53, 30_encoding.md R71). -/

namespace Sys2Proof

@[simp] theorem packFields_nil (w : Nat) : packFields w [] = 0 := rfl

theorem packFields_cons (w v : Nat) (vs : List Nat) : packFields w (v :: vs) = 2 ^ w * packFields w vs + v := by
  simp [packFields, Nat.shiftLeft_eq, Nat.mul_comm, Nat.add_comm]

/-- Bit `b` of the stream is bit `b % w` of field `b / w`. -/
theorem testBit_packFields {w : Nat} (hw : 0 < w) {vs : List Nat} (h : ∀ v ∈ vs, v < 2 ^ w) (b : Nat) :
    (packFields w vs).testBit b = (vs.getD (b / w) 0).testBit (b % w) := by
  induction vs generalizing b with
  | nil => simp
  | cons v vs ih =>
    rw [packFields_cons, Nat.testBit_two_pow_mul_add _ (h v (by simp))]
    split
    · next hb => simp [Nat.div_eq_of_lt hb, Nat.mod_eq_of_lt hb]
    · next hb =>
      have hd : b / w = (b - w) / w + 1 := Nat.div_eq_sub_div hw (by omega)
      have hm : b % w = (b - w) % w := Nat.mod_eq_sub_mod (by omega)
      rw [ih fun u hu => h u (by simp [hu]), hd, hm, List.getD_cons_succ]

/-- Bit `j` of a field is bit `w * i + j` of the stream. -/
theorem testBit_fieldAt (w P i j : Nat) : (fieldAt w P i).testBit j = (decide (j < w) && P.testBit (w * i + j)) := by
  simp [fieldAt]

theorem fieldAt_lt (w P i : Nat) : fieldAt w P i < 2 ^ w := by
  have h : fieldAt w P i ≤ 2 ^ w - 1 := Nat.and_le_right
  have := Nat.one_le_two_pow (n := w)
  omega

/-- A packed field is taken out unchanged. -/
theorem fieldAt_packFields {w : Nat} (hw : 0 < w) {vs : List Nat} (h : ∀ v ∈ vs, v < 2 ^ w) {i : Nat} (hi : i < vs.length) :
    fieldAt w (packFields w vs) i = vs[i] := by
  apply Nat.eq_of_testBit_eq
  intro j
  rw [testBit_fieldAt, testBit_packFields hw h]
  by_cases hj : j < w
  · have h1 : (w * i + j) / w = i := by rw [Nat.mul_add_div hw, Nat.div_eq_of_lt hj, Nat.add_zero]
    have h2 : (w * i + j) % w = j := by rw [Nat.mul_add_mod, Nat.mod_eq_of_lt hj]
    rw [h1, h2, List.getD_eq_getElem _ _ hi]
    simp [hj]
  · have : vs[i] < 2 ^ j := lt_of_lt_of_le (h _ (List.getElem_mem hi)) (Nat.pow_le_pow_right (by omega) (by omega))
    simp [hj, Nat.testBit_lt_two_pow this]

/-- The first `n` fields of a stream, packed again, are its low `w * n` bits. -/
theorem packFields_fieldAt {w : Nat} (hw : 0 < w) (P n : Nat) :
    packFields w ((List.range n).map (fieldAt w P)) = P % 2 ^ (w * n) := by
  apply Nat.eq_of_testBit_eq
  intro b
  rw [testBit_packFields hw (by simp only [List.mem_map]; rintro _ ⟨i, -, rfl⟩; exact fieldAt_lt w P i),
    Nat.testBit_mod_two_pow]
  have hb : b / w < n ↔ b < w * n := by rw [Nat.div_lt_iff_lt_mul hw, Nat.mul_comm]
  by_cases h : b < w * n
  · have h' := hb.2 h
    rw [List.getD_eq_getElem _ _ (by simpa using h')]
    simp [testBit_fieldAt, Nat.mod_lt _ hw, Nat.div_add_mod, h]
  · rw [List.getD_eq_default _ _ (by simpa using Nat.le_of_not_lt fun h' => h (hb.1 h'))]
    simp [h]

/-- A stream of `n` fields has at most `w * n` bits. -/
theorem packFields_lt {w : Nat} {vs : List Nat} (h : ∀ v ∈ vs, v < 2 ^ w) : packFields w vs < 2 ^ (w * vs.length) := by
  induction vs with
  | nil => simp
  | cons v vs ih =>
    have h1 := h v (by simp)
    have h2 := ih fun u hu => h u (by simp [hu])
    rw [packFields_cons, List.length_cons, Nat.mul_succ, Nat.pow_add, Nat.mul_comm (2 ^ (w * vs.length))]
    calc 2 ^ w * packFields w vs + v < 2 ^ w * packFields w vs + 2 ^ w := by omega
      _ = 2 ^ w * (packFields w vs + 1) := by ring
      _ ≤ _ := Nat.mul_le_mul_left _ h2

/-! ### u16 values and their bytes -/

@[simp] theorem u16OfBytes_u16Bytes (v : U16) : u16OfBytes (v.extractLsb' 0 8) (v.extractLsb' 8 8) = v := by
  ext i hi
  simp only [u16OfBytes, BitVec.getElem_or, BitVec.getElem_setWidth, BitVec.getElem_shiftLeft,
    BitVec.getLsbD_extractLsb']
  by_cases h : i < 8
  · simp [h, BitVec.getLsbD_eq_getElem hi]
  · simp [h, show i - 8 < 8 by omega, show 8 + (i - 8) = i by omega,
      BitVec.getLsbD_eq_getElem hi]

theorem u16Bytes_u16OfBytes (lo hi : Byte) : u16Bytes (u16OfBytes lo hi) = [lo, hi] := by
  have h1 : (u16OfBytes lo hi).extractLsb' 0 8 = lo := by
    ext i hi'
    simp [u16OfBytes, hi']
    omega
  have h2 : (u16OfBytes lo hi).extractLsb' 8 8 = hi := by
    ext i hi'
    simp [u16OfBytes, BitVec.getLsbD_eq_getElem hi', show 8 + i < 16 by omega]
  simp [u16Bytes, h1, h2]

@[simp] theorem channelBytes_nil : channelBytes [] = [] := rfl

@[simp] theorem channelBytes_cons (v : U16) (ch : List U16) :
    channelBytes (v :: ch) = v.extractLsb' 0 8 :: v.extractLsb' 8 8 :: channelBytes ch := rfl

/-- Two bytes per channel value (R84). -/
@[simp] theorem length_channelBytes (ch : List U16) : (channelBytes ch).length = 2 * ch.length := by
  induction ch with
  | nil => rfl
  | cons v ch ih => simp [ih]; omega

@[simp] theorem channelsOfBytes_channelBytes (ch : List U16) : channelsOfBytes (channelBytes ch) = ch := by
  induction ch with
  | nil => rfl
  | cons v ch ih => simp [channelsOfBytes, ih]

/-- An operand of `2 * n` bytes is `n` channel values (R77), whose bytes are the operand. -/
theorem channelBytes_channelsOfBytes (n : Nat) {bs : List Byte} (h : bs.length = 2 * n) :
    (channelsOfBytes bs).length = n ∧ channelBytes (channelsOfBytes bs) = bs := by
  induction n generalizing bs with
  | zero =>
    have : bs = [] := List.length_eq_zero_iff.1 (by simpa using h)
    subst this
    simp [channelsOfBytes]
  | succ n ih =>
    match bs, h with
    | lo :: hi :: rest, h =>
      have hr := ih (bs := rest) (by simp at h; omega)
      have hb := u16Bytes_u16OfBytes lo hi
      simp only [u16Bytes, List.cons.injEq, and_true] at hb
      simp [channelsOfBytes, hr.1, hr.2, hb.1, hb.2]

/-! ### Frames and their bytes -/

/-- A frame depends only on the 25 bytes of its window. -/
theorem Frame.ofWindow_congr {f g : Nat → Byte} (h : ∀ k, k < 25 → f k = g k) : Frame.ofWindow f = Frame.ofWindow g := by
  have hp : (List.range payloadLength).map (fun k => f (1 + k)) = (List.range payloadLength).map (fun k => g (1 + k)) := by
    apply List.map_congr_left
    intro k hk
    have : k < 22 := by simpa using hk
    exact h _ (by omega)
  simp only [Frame.ofWindow, h 0 (by omega), h 23 (by omega), h 24 (by omega), hp]

@[simp] theorem Frame.ofWindow_header (f : Nat → Byte) : (Frame.ofWindow f).header = f 0 := rfl
@[simp] theorem Frame.ofWindow_footer (f : Nat → Byte) : (Frame.ofWindow f).footer = f 24 := rfl
@[simp] theorem Frame.ofWindow_flagByte (f : Nat → Byte) : (Frame.ofWindow f).flagByte = f 23 := rfl
theorem Frame.ofWindow_payload (f : Nat → Byte) : (Frame.ofWindow f).payload = (List.range 22).map fun k => f (1 + k) := rfl

/-- A frame read from a window has its 22 payload bytes. -/
theorem Frame.ofWindow_wf (f : Nat → Byte) : (Frame.ofWindow f).WellFormed := by simp [Frame.ofWindow]

@[simp] theorem Frame.length_bytes (F : Frame) : F.bytes.length = F.payload.length + 3 := by simp [Frame.bytes]

namespace Machine

@[simp] theorem length_decodeChannels (F : Frame) : (decodeChannels F).length = 16 := by simp [decodeChannels]

@[simp] theorem length_encodePayload (ch : List U16) : (encodePayload ch).length = 22 := by simp [encodePayload]

@[simp] theorem length_packetBytes (p : Packet) : (packetBytes p).length = 2 * p.channels.length + 1 := by
  simp [packetBytes]

theorem truncateChannel_lt (v : U16) : truncateChannel v < 2 ^ 11 := by
  have : truncateChannel v ≤ 0x7FF := Nat.and_le_right
  omega

theorem payloadInt_lt {p : List Byte} (h : p.length = 22) : payloadInt p < 2 ^ 176 := by
  have := packFields_lt (w := 8) (vs := p.map BitVec.toNat) (by
    simp only [List.mem_map]; rintro _ ⟨b, -, rfl⟩; exact b.isLt)
  simpa [payloadInt, h] using this

/-- Bit `b` of P is bit `b % 8` of payload byte `b / 8` (20_memory.md R53). -/
theorem testBit_payloadInt (p : List Byte) (b : Nat) :
    (payloadInt p).testBit b = (p.getD (b / 8) 0).getLsbD (b % 8) := by
  rw [payloadInt, testBit_packFields (by omega)]
  · by_cases h : b / 8 < p.length
    · rw [List.getD_eq_getElem _ _ (by simpa using h), List.getD_eq_getElem _ _ h]; simp [BitVec.getLsbD]
    · rw [List.getD_eq_default _ _ (by simpa using h), List.getD_eq_default _ _ (by simpa using h)]; simp
  · simp only [List.mem_map]; rintro _ ⟨b, -, rfl⟩; exact b.isLt

end Machine

end Sys2Proof
end

