-- ==== Sys2Proof/Laws/Decode.lean ====
section
/-! SUPPORT. The opcode map read in both directions, and operand assembly against operand bytes (30_encoding.md R76, R80). -/

namespace Sys2Proof

@[simp] theorem Opcode.ofByte_code (k : Opcode) : Opcode.ofByte k.code = some k := by cases k <;> decide

theorem Opcode.code_of_ofByte {b : Byte} {k : Opcode} (h : Opcode.ofByte b = some k) : k.code = b := by
  simpa using List.find?_some h

/-- No two rows of the map share an opcode byte (R80). -/
theorem Opcode.code_injective {k k' : Opcode} (h : k.code = k'.code) : k = k' := by
  have := Opcode.ofByte_code k
  rw [h, Opcode.ofByte_code] at this
  exact (Option.some.inj this).symm

/-- Everything the decoder can answer (R174): the opcode is looked up first, the length checked second. -/
theorem decode_cases (c : Command) :
    (Opcode.ofByte c.op = none ∧ decode c = .error (.illegal c.op)) ∨
    ∃ k, Opcode.ofByte c.op = some k ∧
      (k.format.accepts c.opnd.length = true ∧ decode c = .ok (k.assemble c.opnd) ∨
       k.format.accepts c.opnd.length = false ∧ decode c = .error (.malformed k c.opnd.length)) := by
  unfold decode
  cases h : Opcode.ofByte c.op with
  | none => simp
  | some k => cases hk : k.format.accepts c.opnd.length <;> simp [hk]

theorem decode_of_accepts {c : Command} {k : Opcode} (h : Opcode.ofByte c.op = some k)
    (ha : k.format.accepts c.opnd.length = true) : decode c = .ok (k.assemble c.opnd) := by
  simp [decode, h, ha]

/-- The assembled command belongs to its row. -/
@[simp] theorem Opcode.opcode_assemble (k : Opcode) (opnd : List Byte) : (k.assemble opnd).opcode = k := by
  cases k <;> rfl

/-- Assembling a frame's own bytes gives the frame back (R76, FMT_FR). -/
theorem Frame.ofWindow_bytes {F : Frame} (h : F.WellFormed) : Frame.ofWindow (fun j => F.bytes.getD j 0) = F := by
  obtain ⟨a, p, b, c⟩ := F
  have hp : p.length = 22 := h
  have e : (List.range 22).map (fun k => p.getD k 0) = p := by
    apply List.ext_getElem
    · simp [hp]
    · intro i h1 h2
      simp [List.getElem?_eq_getElem h2]
  have hpay : (List.range 22).map (fun k => (Frame.bytes ⟨a, p, b, c⟩).getD (1 + k) 0) = p := by
    refine Eq.trans ?_ e
    apply List.map_congr_left
    intro k hk
    have hk : k < p.length := by simpa [hp] using hk
    rw [Nat.add_comm 1 k]
    simp only [Frame.bytes, List.getD_cons_succ]
    rw [List.getD_append _ _ _ _ hk]
  have h23 : (Frame.bytes ⟨a, p, b, c⟩).getD 23 0 = b := by
    simp only [Frame.bytes, List.getD_cons_succ]
    rw [List.getD_append_right _ _ _ _ (by omega), hp]; rfl
  have h24 : (Frame.bytes ⟨a, p, b, c⟩).getD 24 0 = c := by
    simp only [Frame.bytes, List.getD_cons_succ]
    rw [List.getD_append_right _ _ _ _ (by omega), hp]; rfl
  simp only [Frame.ofWindow, payloadLength, hpay, h23, h24]
  rfl

/-- The bytes of the frame assembled from 25 bytes are those bytes (R76, FMT_FR). -/
theorem Frame.bytes_ofWindow {bs : List Byte} (h : bs.length = 25) :
    (Frame.ofWindow fun j => bs.getD j 0).bytes = bs := by
  apply List.ext_getElem
  · simp [Frame.ofWindow, h]
  · intro i h1 h2
    rw [← List.getD_eq_getElem _ (0 : Byte) h1, ← List.getD_eq_getElem _ (0 : Byte) h2]
    simp only [Frame.bytes, Frame.ofWindow, payloadLength]
    cases i with
    | zero => rfl
    | succ i =>
      rw [List.getD_cons_succ]
      by_cases hi : i < 22
      · rw [List.getD_append _ _ _ _ (by simpa using hi), List.getD_eq_getElem _ _ (by simpa using hi)]
        simp [Nat.add_comm 1 i]
      · rw [List.getD_append_right _ _ _ _ (by simpa using hi)]
        have : i = 22 ∨ i = 23 := by omega
        rcases this with rfl | rfl <;> simp

end Sys2Proof
end

