-- ==== Sys2Proof/Laws/Memory.lean ====
section
/-! SUPPORT. Ring cells: a read after a write, the cells a write leaves alone, and the canonical form. -/

namespace Sys2Proof.Machine

@[simp] theorem Memory.read?_nil (a : Nat) : Memory.read? [] a = none := rfl

@[simp] theorem Memory.read?_write_self (m : Memory) (a : Nat) (v : Byte) : (m.write a v).read? a = some v := by
  induction m with
  | nil => simp [Memory.write, Memory.read?]
  | cons c m ih =>
    simp only [Memory.write]
    split
    · simp [Memory.read?]
    · split
      · simp [Memory.read?]
      · simp [Memory.read?, *]

theorem Memory.read?_write_of_ne (m : Memory) {a a' : Nat} (v : Byte) (h : a' ≠ a) :
    (m.write a v).read? a' = m.read? a' := by
  induction m with
  | nil => simp [Memory.write, Memory.read?, h.symm]
  | cons c m ih =>
    simp only [Memory.write]
    split
    · simp [Memory.read?, h.symm]
    · split
      · next hc => simp [Memory.read?, hc, h.symm]
      · simp [Memory.read?, ih]

@[simp] theorem Memory.read_write_self (m : Memory) (a : Nat) (v : Byte) : (m.write a v).read a = v := by
  simp [Memory.read]

theorem Memory.read_write_of_ne (m : Memory) {a a' : Nat} (v : Byte) (h : a' ≠ a) :
    (m.write a v).read a' = m.read a' := by
  simp [Memory.read, Memory.read?_write_of_ne m v h]

/-- The indices a write leaves in the list: the old ones and the written one. -/
theorem Memory.mem_write {m : Memory} {a : Nat} {v : Byte} {c : Host.Cell} (h : c ∈ m.write a v) :
    c = (a, v) ∨ c ∈ m := by
  induction m with
  | nil => simpa [Memory.write] using h
  | cons x m ih =>
    simp only [Memory.write] at h
    split at h
    · simpa using h
    · split at h
      · simp only [List.mem_cons] at h ⊢; tauto
      · simp only [List.mem_cons] at h ⊢
        rcases h with h | h
        · tauto
        · have := ih h; tauto

/-- The canonical form is a strictly rising list of indices. -/
theorem Memory.wf_iff_pairwise (m : Memory) : m.wf = true ↔ m.Pairwise (fun x y => x.1 < y.1) := by
  induction m with
  | nil => simp [Memory.wf]
  | cons x m ih =>
    cases m with
    | nil => simp [Memory.wf]
    | cons y m =>
      simp only [Memory.wf, Bool.and_eq_true, decide_eq_true_eq, ih]
      constructor
      · rintro ⟨hxy, h⟩
        refine List.pairwise_cons.2 ⟨fun z hz => ?_, h⟩
        rcases List.mem_cons.1 hz with rfl | hz
        · exact hxy
        · exact hxy.trans ((List.pairwise_cons.1 h).1 z hz)
      · intro h
        exact ⟨(List.pairwise_cons.1 h).1 y (by simp), (List.pairwise_cons.1 h).2⟩

/-- A write keeps the canonical form. -/
theorem Memory.wf_write {m : Memory} (h : m.wf = true) (a : Nat) (v : Byte) : (m.write a v).wf = true := by
  rw [Memory.wf_iff_pairwise] at h ⊢
  induction m with
  | nil => simp [Memory.write]
  | cons x m ih =>
    obtain ⟨hx, hm⟩ := List.pairwise_cons.1 h
    simp only [Memory.write]
    split
    · next hlt =>
      refine List.pairwise_cons.2 ⟨fun z hz => ?_, h⟩
      rcases List.mem_cons.1 hz with rfl | hz
      · exact hlt
      · exact hlt.trans (hx z hz)
    · split
      · next heq =>
        refine List.pairwise_cons.2 ⟨fun z hz => ?_, hm⟩
        have := hx z hz
        simpa [← heq] using this
      · next hlt heq =>
        refine List.pairwise_cons.2 ⟨fun z hz => ?_, ih hm⟩
        rcases Memory.mem_write hz with rfl | hz
        · show x.1 < a
          omega
        · exact hx z hz

/-- A listed index reads as its entry. -/
theorem Memory.read?_of_mem {m : Memory} (h : m.wf = true) {c : Host.Cell} (hc : c ∈ m) : m.read? c.1 = some c.2 := by
  rw [Memory.wf_iff_pairwise] at h
  induction m with
  | nil => simp at hc
  | cons x m ih =>
    obtain ⟨hx, hm⟩ := List.pairwise_cons.1 h
    rcases List.mem_cons.1 hc with rfl | hc
    · simp [Memory.read?]
    · have := hx c hc
      simp only [Memory.read?]
      rw [if_neg (by omega)]
      exact ih hm hc

/-- An index that reads as a byte is listed with it. -/
theorem Memory.mem_of_read? {m : Memory} {a : Nat} {v : Byte} (h : m.read? a = some v) : (a, v) ∈ m := by
  induction m with
  | nil => simp at h
  | cons x m ih =>
    simp only [Memory.read?] at h
    split at h
    · next hx => simp only [Option.some.injEq] at h; simp [← hx, ← h]
    · exact List.mem_cons_of_mem _ (ih h)

/-- Equal memories are equal data: two canonical lists that read alike are the same list. -/
theorem Memory.ext_read? {m m' : Memory} (h : m.wf = true) (h' : m'.wf = true)
    (heq : ∀ a, m.read? a = m'.read? a) : m = m' := by
  have hp := (Memory.wf_iff_pairwise m).1 h
  have hp' := (Memory.wf_iff_pairwise m').1 h'
  have nd : ∀ {l : Memory}, l.Pairwise (fun x y => x.1 < y.1) → l.Nodup := fun hl =>
    hl.imp (fun hxy => by intro e; simp [e] at hxy)
  have perm : m.Perm m' := by
    rw [List.perm_ext_iff_of_nodup (nd hp) (nd hp')]
    rintro ⟨a, v⟩
    constructor
    · intro hc
      have := Memory.read?_of_mem h hc
      rw [heq] at this
      exact Memory.mem_of_read? this
    · intro hc
      have := Memory.read?_of_mem h' hc
      rw [← heq] at this
      exact Memory.mem_of_read? this
  exact perm.eq_of_pairwise (fun x y _ _ hxy hyx => by omega) hp hp'

end Sys2Proof.Machine
end

