-- ==== Sys2Proof/Laws/State.lean ====
section
/-! SUPPORT. One lemma per field per state update, so that no later proof unfolds a record update. -/

namespace Sys2Proof.Machine

/-! ### The ways of raising are all `respond` -/

@[simp] theorem State.raise_eq (s : State) (e : Status) (info : List Byte) : s.raise e info = s.respond e info := rfl
@[simp] theorem State.raiseMalformed_eq (s : State) : s.raiseMalformed = s.respond .malformedCommand [] := rfl
@[simp] theorem State.raiseIllegal_eq (s : State) : s.raiseIllegal = s.respond .illegalCommand [] := rfl
@[simp] theorem State.rejectCommand_illegal (s : State) (b : Byte) :
    s.rejectCommand (.illegal b) = s.respond .illegalCommand [] := rfl
@[simp] theorem State.rejectCommand_malformed (s : State) (k : Opcode) (n : Nat) :
    s.rejectCommand (.malformed k n) = s.respond .malformedCommand [] := rfl
@[simp] theorem State.raiseNoFrame_eq (s : State) (r : Bool) :
    s.raiseNoFrame r = s.respond (if r then .invalidFrame else .incompleteData) [] := rfl

/-! ### respond -/

variable (s : State) (st : Status) (res : List Byte)

@[simp] theorem State.respond_cfg : (s.respond st res).cfg = s.cfg := rfl
@[simp] theorem State.respond_ring : (s.respond st res).ring = s.ring := rfl
@[simp] theorem State.respond_rd : (s.respond st res).rd = s.rd := rfl
@[simp] theorem State.respond_wr : (s.respond st res).wr = s.wr := rfl
@[simp] theorem State.respond_program : (s.respond st res).program = s.program := rfl
@[simp] theorem State.respond_responses :
    (s.respond st res).responses = s.responses ++ [{ status := st, result := res }] := rfl
@[simp] theorem State.respond_avail : (s.respond st res).avail = s.avail := rfl
@[simp] theorem State.respond_cellIndex (k : Nat) : (s.respond st res).cellIndex k = s.cellIndex k := rfl
@[simp] theorem State.respond_windowByte : (s.respond st res).windowByte = s.windowByte := rfl
@[simp] theorem State.respond_window : (s.respond st res).window = s.window := rfl

/-! ### issue -/

variable (rest : List Command)

@[simp] theorem State.issue_cfg : (s.issue rest).cfg = s.cfg := rfl
@[simp] theorem State.issue_ring : (s.issue rest).ring = s.ring := rfl
@[simp] theorem State.issue_rd : (s.issue rest).rd = s.rd := rfl
@[simp] theorem State.issue_wr : (s.issue rest).wr = s.wr := rfl
@[simp] theorem State.issue_program : (s.issue rest).program = rest := rfl
@[simp] theorem State.issue_responses : (s.issue rest).responses = s.responses := rfl
@[simp] theorem State.issue_avail : (s.issue rest).avail = s.avail := rfl
@[simp] theorem State.issue_cellIndex (k : Nat) : (s.issue rest).cellIndex k = s.cellIndex k := rfl
@[simp] theorem State.issue_windowByte : (s.issue rest).windowByte = s.windowByte := rfl
@[simp] theorem State.issue_window : (s.issue rest).window = s.window := rfl

/-! ### advanceRd -/

variable (n : Nat)

@[simp] theorem State.advanceRd_cfg : (s.advanceRd n).cfg = s.cfg := rfl
@[simp] theorem State.advanceRd_ring : (s.advanceRd n).ring = s.ring := rfl
@[simp] theorem State.advanceRd_rd : (s.advanceRd n).rd = (s.rd + n) % s.cfg.capacity := rfl
@[simp] theorem State.advanceRd_wr : (s.advanceRd n).wr = s.wr := rfl
@[simp] theorem State.advanceRd_program : (s.advanceRd n).program = s.program := rfl
@[simp] theorem State.advanceRd_responses : (s.advanceRd n).responses = s.responses := rfl

/-! ### pushByte and pushBytes -/

variable (b : Byte) (bs : List Byte)

@[simp] theorem State.pushByte_cfg : (s.pushByte b).cfg = s.cfg := rfl
@[simp] theorem State.pushByte_ring : (s.pushByte b).ring = s.ring.write s.wr b := rfl
@[simp] theorem State.pushByte_rd : (s.pushByte b).rd = s.rd := rfl
@[simp] theorem State.pushByte_wr : (s.pushByte b).wr = (s.wr + 1) % s.cfg.capacity := rfl
@[simp] theorem State.pushByte_program : (s.pushByte b).program = s.program := rfl
@[simp] theorem State.pushByte_responses : (s.pushByte b).responses = s.responses := rfl

@[simp] theorem State.pushBytes_nil : s.pushBytes [] = s := rfl
@[simp] theorem State.pushBytes_cons : s.pushBytes (b :: bs) = (s.pushByte b).pushBytes bs := rfl

@[simp] theorem State.pushBytes_cfg : (s.pushBytes bs).cfg = s.cfg := by
  induction bs generalizing s with
  | nil => rfl
  | cons b bs ih => simp [ih]

@[simp] theorem State.pushBytes_rd : (s.pushBytes bs).rd = s.rd := by
  induction bs generalizing s with
  | nil => rfl
  | cons b bs ih => simp [ih]

@[simp] theorem State.pushBytes_program : (s.pushBytes bs).program = s.program := by
  induction bs generalizing s with
  | nil => rfl
  | cons b bs ih => simp [ih]

@[simp] theorem State.pushBytes_responses : (s.pushBytes bs).responses = s.responses := by
  induction bs generalizing s with
  | nil => rfl
  | cons b bs ih => simp [ih]

/-! ### ifWellFormed -/

@[simp] theorem State.ifWellFormed_of_wf {i : Instr} (run : State) (h : i.WellFormed) : s.ifWellFormed i run = run := by
  simp [State.ifWellFormed, show i.wellFormed = true from h]

theorem State.ifWellFormed_of_not_wf {i : Instr} (run : State) (h : ¬ i.WellFormed) :
    s.ifWellFormed i run = s.respond .malformedCommand [] := by
  simp [State.ifWellFormed, show ¬ i.wellFormed = true from h]

/-- A state is determined by its fields. -/
theorem State.ext_fields {s t : State} (h1 : s.cfg = t.cfg) (h2 : s.ring = t.ring) (h3 : s.rd = t.rd) (h4 : s.wr = t.wr)
    (h5 : s.program = t.program) (h6 : s.responses = t.responses) : s = t := by
  cases s; cases t; simp_all

end Sys2Proof.Machine
end

