-- ==== Sys2Proof/Laws/Ring.lean ====
section
/-! SUPPORT. Cursors and the live window: the occupancy formula (10_state.md R31), and what one push and one advance of the
read cursor do to the window (20_memory.md R51, R52). -/

namespace Sys2Proof.Machine

/-! ### Arithmetic modulo C -/

theorem mod_of_lt_two_mul {x c : Nat} (h : x < 2 * c) : x % c = if x < c then x else x - c := by
  split
  · next hx => exact Nat.mod_eq_of_lt hx
  · rw [Nat.mod_eq_sub_mod (by omega), Nat.mod_eq_of_lt (by omega)]

/-- The occupancy formula for cursors in range. -/
theorem occupancy_eq {c rd wr : Nat} (hr : rd < c) (hw : wr < c) :
    occupancy c rd wr = if rd ≤ wr then wr - rd else wr + c - rd := by
  unfold occupancy
  split
  · rw [Int.emod_eq_of_lt (by omega) (by omega)]; omega
  · rw [← Int.add_emod_right, Int.emod_eq_of_lt (by omega) (by omega)]; omega

theorem occupancy_lt {c rd wr : Nat} (hr : rd < c) (hw : wr < c) : occupancy c rd wr < c := by
  rw [occupancy_eq hr hw]; split <;> omega

/-- The read cursor plus the occupancy is the write cursor. -/
theorem rd_add_occupancy {c rd wr : Nat} (hr : rd < c) (hw : wr < c) : (rd + occupancy c rd wr) % c = wr := by
  rw [occupancy_eq hr hw, mod_of_lt_two_mul (by split <;> omega)]
  split <;> split <;> omega

/-- The occupancy is the only number below C that leads from the read cursor to the write cursor. -/
theorem occupancy_unique {c rd n : Nat} (hr : rd < c) (hn : n < c) : occupancy c rd ((rd + n) % c) = n := by
  have hw : (rd + n) % c < c := Nat.mod_lt _ (by omega)
  rw [occupancy_eq hr hw, mod_of_lt_two_mul (by omega)]
  split <;> split <;> omega

/-- Advancing the read cursor by `n` buffered bytes takes `n` off the occupancy. -/
theorem occupancy_advance {c rd wr n : Nat} (hr : rd < c) (hw : wr < c) (hn : n ≤ occupancy c rd wr) :
    occupancy c ((rd + n) % c) wr = occupancy c rd wr - n := by
  have hlt := occupancy_lt hr hw
  have hr' : (rd + n) % c < c := Nat.mod_lt _ (by omega)
  have key : ((rd + n) % c + (occupancy c rd wr - n)) % c = wr := by
    rw [Nat.mod_add_mod, Nat.add_assoc, Nat.add_sub_cancel' hn, rd_add_occupancy hr hw]
  have := occupancy_unique hr' (show occupancy c rd wr - n < c by omega)
  rwa [key] at this

/-- Advancing the write cursor by `n`, where there is room, puts `n` on the occupancy. -/
theorem occupancy_push {c rd wr n : Nat} (hr : rd < c) (hw : wr < c) (hn : occupancy c rd wr + n < c) :
    occupancy c rd ((wr + n) % c) = occupancy c rd wr + n := by
  have key : (wr + n) % c = (rd + (occupancy c rd wr + n)) % c := by
    conv_lhs => rw [← rd_add_occupancy hr hw]
    rw [Nat.mod_add_mod, Nat.add_assoc]
  rw [key, occupancy_unique hr hn]

/-- Different offsets below C name different cells. -/
theorem cell_inj {c rd j k : Nat} (hr : rd < c) (hj : j < c) (hk : k < c) (h : (rd + j) % c = (rd + k) % c) : j = k := by
  have h1 := occupancy_unique hr hj
  rw [h, occupancy_unique hr hk] at h1
  exact h1.symm

/-! ### The live window -/

variable {s : State}

theorem State.Wf.pos (h : s.Wf) : 0 < s.cfg.capacity := Nat.lt_of_le_of_lt (Nat.zero_le _) h.rd_lt

theorem State.Wf.avail_lt (h : s.Wf) : s.avail < s.cfg.capacity := occupancy_lt h.rd_lt h.wr_lt

@[simp] theorem State.length_window (s : State) : s.window.length = s.avail := by simp [State.window]

theorem State.getElem_window (s : State) (k : Nat) (h : k < s.window.length) : s.window[k] = s.windowByte k := by
  simp [State.window]

theorem State.getD_window (s : State) {k : Nat} (h : k < s.avail) : s.window.getD k 0 = s.windowByte k := by
  rw [List.getD_eq_getElem _ _ (by simpa using h), State.getElem_window]

/-! ### Advancing the read cursor -/

theorem State.cellIndex_advanceRd (s : State) (n k : Nat) : (s.advanceRd n).cellIndex k = s.cellIndex (n + k) := by
  simp [State.cellIndex, Nat.add_assoc]

theorem State.windowByte_advanceRd (s : State) (n k : Nat) : (s.advanceRd n).windowByte k = s.windowByte (n + k) := by
  simp [State.windowByte, State.cellIndex_advanceRd]

theorem State.avail_advanceRd (h : s.Wf) {n : Nat} (hn : n ≤ s.avail) : (s.advanceRd n).avail = s.avail - n :=
  occupancy_advance h.rd_lt h.wr_lt hn

theorem State.window_advanceRd (h : s.Wf) {n : Nat} (hn : n ≤ s.avail) : (s.advanceRd n).window = s.window.drop n := by
  apply List.ext_getElem
  · simp [State.avail_advanceRd h hn]
  · intro k h1 h2
    rw [State.getElem_window, List.getElem_drop, State.getElem_window, State.windowByte_advanceRd]

theorem State.Wf.advanceRd (h : s.Wf) (n : Nat) : (s.advanceRd n).Wf :=
  ⟨h.legal, Nat.mod_lt _ h.pos, h.wr_lt, h.ring_wf, h.ring_lt⟩

theorem State.LiveWritten.advanceRd (h : s.Wf) (hl : s.LiveWritten) {n : Nat} (hn : n ≤ s.avail) :
    (s.advanceRd n).LiveWritten := by
  intro k hk
  rw [State.avail_advanceRd h hn] at hk
  rw [State.cellIndex_advanceRd]
  exact hl _ (by omega)

theorem State.advanceRd_zero (h : s.Wf) : s.advanceRd 0 = s :=
  State.ext_fields rfl rfl (by simp [Nat.mod_eq_of_lt h.rd_lt]) rfl rfl rfl

theorem State.advanceRd_advanceRd (s : State) (n m : Nat) : (s.advanceRd n).advanceRd m = s.advanceRd (n + m) :=
  State.ext_fields rfl rfl (by simp [Nat.add_assoc]) rfl rfl rfl

/-! ### Pushing -/

theorem State.Wf.pushByte (h : s.Wf) (b : Byte) : (s.pushByte b).Wf :=
  ⟨h.legal, h.rd_lt, Nat.mod_lt _ h.pos, Memory.wf_write h.ring_wf _ _, fun c hc => by
    rcases Memory.mem_write hc with rfl | hc
    · exact h.wr_lt
    · exact h.ring_lt c hc⟩

theorem State.avail_pushByte (h : s.Wf) (b : Byte) (hroom : s.avail + 1 < s.cfg.capacity) :
    (s.pushByte b).avail = s.avail + 1 := occupancy_push h.rd_lt h.wr_lt hroom

@[simp] theorem State.cellIndex_pushByte (s : State) (b : Byte) (k : Nat) :
    (s.pushByte b).cellIndex k = s.cellIndex k := rfl

theorem State.cellIndex_avail (h : s.Wf) : s.cellIndex s.avail = s.wr := rd_add_occupancy h.rd_lt h.wr_lt

theorem State.cellIndex_ne_wr (h : s.Wf) {k : Nat} (hk : k < s.avail) : s.cellIndex k ≠ s.wr := by
  intro e
  rw [← State.cellIndex_avail h] at e
  have := h.avail_lt
  have := cell_inj h.rd_lt (by omega) this e
  omega

theorem State.window_pushByte (h : s.Wf) (b : Byte) (hroom : s.avail + 1 < s.cfg.capacity) :
    (s.pushByte b).window = s.window ++ [b] := by
  apply List.ext_getElem
  · simp [State.avail_pushByte h b hroom]
  · intro k h1 h2
    rw [State.getElem_window]
    simp only [State.length_window, State.avail_pushByte h b hroom] at h1
    rcases Nat.lt_succ_iff_lt_or_eq.1 h1 with hk | rfl
    · rw [List.getElem_append_left (by simpa using hk), State.getElem_window]
      exact Memory.read_write_of_ne _ _ (State.cellIndex_ne_wr h hk)
    · rw [List.getElem_append_right (by simp)]
      simp [State.windowByte, State.cellIndex_avail h]

theorem State.LiveWritten.pushByte (h : s.Wf) (hl : s.LiveWritten) (b : Byte) (hroom : s.avail + 1 < s.cfg.capacity) :
    (s.pushByte b).LiveWritten := by
  intro k hk
  rw [State.avail_pushByte h b hroom] at hk
  simp only [State.cellIndex_pushByte, State.pushByte_ring]
  rcases Nat.lt_succ_iff_lt_or_eq.1 hk with hk | rfl
  · rw [Memory.read?_write_of_ne _ _ (State.cellIndex_ne_wr h hk)]; exact hl k hk
  · simp [State.cellIndex_avail h]

theorem State.Wf.pushBytes (h : s.Wf) (bs : List Byte) : (s.pushBytes bs).Wf := by
  induction bs generalizing s with
  | nil => exact h
  | cons b bs ih => exact ih (h.pushByte b)

theorem State.pushBytes_wr (h : s.Wf) (bs : List Byte) : (s.pushBytes bs).wr = (s.wr + bs.length) % s.cfg.capacity := by
  induction bs generalizing s with
  | nil => simp [Nat.mod_eq_of_lt h.wr_lt]
  | cons b bs ih => simp [ih (h.pushByte b), Nat.add_assoc, Nat.add_comm 1]

/-- What an accepted block does to the window (R63). -/
theorem State.window_pushBytes (h : s.Wf) (bs : List Byte) (hroom : s.avail + bs.length < s.cfg.capacity) :
    (s.pushBytes bs).window = s.window ++ bs := by
  induction bs generalizing s with
  | nil => simp
  | cons b bs ih =>
    simp only [List.length_cons] at hroom
    have hb : s.avail + 1 < s.cfg.capacity := by omega
    rw [State.pushBytes_cons, ih (h.pushByte b) (by rw [State.avail_pushByte h b hb, State.pushByte_cfg]; omega),
      State.window_pushByte h b hb]
    simp

theorem State.avail_pushBytes (h : s.Wf) (bs : List Byte) (hroom : s.avail + bs.length < s.cfg.capacity) :
    (s.pushBytes bs).avail = s.avail + bs.length := by
  rw [← State.length_window, State.window_pushBytes h bs hroom]; simp

theorem State.LiveWritten.pushBytes (h : s.Wf) (hl : s.LiveWritten) (bs : List Byte)
    (hroom : s.avail + bs.length < s.cfg.capacity) : (s.pushBytes bs).LiveWritten := by
  induction bs generalizing s with
  | nil => exact hl
  | cons b bs ih =>
    simp only [List.length_cons] at hroom
    have hb : s.avail + 1 < s.cfg.capacity := by omega
    exact ih (h.pushByte b) (hl.pushByte h b hb) (by rw [State.avail_pushByte h b hb, State.pushByte_cfg]; omega)

/-- Every cell outside the written ones is left alone (R51). -/
theorem State.read?_pushBytes_of_ne (h : s.Wf) (bs : List Byte) {a : Nat}
    (ha : ∀ j, j < bs.length → a ≠ (s.wr + j) % s.cfg.capacity) : (s.pushBytes bs).ring.read? a = s.ring.read? a := by
  induction bs generalizing s with
  | nil => rfl
  | cons b bs ih =>
    have h0 : a ≠ s.wr := by
      have := ha 0 (by simp)
      rwa [Nat.add_zero, Nat.mod_eq_of_lt h.wr_lt] at this
    rw [State.pushBytes_cons, ih (h.pushByte b), State.pushByte_ring, Memory.read?_write_of_ne _ _ h0]
    intro j hj
    have := ha (j + 1) (by simpa using hj)
    simpa [Nat.add_assoc, Nat.add_comm 1 j] using this

/-- Each written cell holds its byte of the block (R51). -/
theorem State.read?_pushBytes (h : s.Wf) (bs : List Byte) (hlen : bs.length < s.cfg.capacity) {j : Nat} (hj : j < bs.length) :
    (s.pushBytes bs).ring.read? ((s.wr + j) % s.cfg.capacity) = some bs[j] := by
  induction bs generalizing s j with
  | nil => simp at hj
  | cons b bs ih =>
    simp only [List.length_cons] at hlen hj
    cases j with
    | zero =>
      rw [State.pushBytes_cons, Nat.add_zero, Nat.mod_eq_of_lt h.wr_lt, State.read?_pushBytes_of_ne (h.pushByte b)]
      · simp
      · intro j hj e
        simp only [State.pushByte_wr, State.pushByte_cfg, Nat.mod_add_mod] at e
        have h1 : (s.wr + 0) % s.cfg.capacity = (s.wr + (1 + j)) % s.cfg.capacity := by
          rw [Nat.add_zero, Nat.mod_eq_of_lt h.wr_lt, ← Nat.add_assoc]; exact e
        have := cell_inj h.wr_lt (by omega) (by omega) h1
        omega
    | succ j =>
      have := ih (h.pushByte b) (by simp; omega) (show j < bs.length by omega)
      simp only [State.pushByte_wr, State.pushByte_cfg, Nat.mod_add_mod] at this
      simpa [Nat.add_assoc, Nat.add_comm 1 j] using this

end Sys2Proof.Machine
end

