-- ==== Sys2Proof/Laws/Search.lean ====
section
/-! SUPPORT. NEXT's loop: what the header seek and the frame search can do (42_synchronizer.md R133 to R141), said once in
terms of the live window. -/

namespace Sys2Proof.Machine

/-! ### Windows and their suffixes -/

theorem getD_drop_eq (W : List Byte) (d k : Nat) : (W.drop d).getD k 0 = W.getD (d + k) 0 := by
  simp [List.getD_eq_getElem?_getD]

theorem candidate_drop {W : List Byte} {d j : Nat} (h : d ≤ W.length) : Candidate (W.drop d) j ↔ Candidate W (d + j) := by
  simp only [Candidate, getD_drop_eq, List.length_drop]
  constructor
  · rintro ⟨h1, h2⟩; exact ⟨by omega, h2⟩
  · rintro ⟨h1, h2⟩; exact ⟨by omega, h2⟩

theorem accepted_drop {r : FooterRule} {W : List Byte} {d j : Nat} (h : d ≤ W.length) :
    Accepted r (W.drop d) j ↔ Accepted r W (d + j) := by
  simp only [Accepted, candidate_drop h, getD_drop_eq, Nat.add_assoc]

theorem frameAt_drop (W : List Byte) (d j : Nat) : frameAt (W.drop d) j = frameAt W (d + j) := by
  simp only [frameAt, getD_drop_eq, Nat.add_assoc]

/-- The candidate buffer holds the first 25 bytes of the live window (R137). -/
theorem State.candidate_eq {s : State} (h : 25 ≤ s.avail) : s.candidate = frameAt s.window 0 :=
  Frame.ofWindow_congr fun k hk => by rw [Nat.zero_add, State.getD_window s (by omega)]

/-! ### The header seek -/

/-- SEEK_HEADER (R135) discards `d` bytes, none of them a header and each while at least 25 were buffered, and stops at
a header or with fewer than 25 bytes left. -/
theorem seekHeader_spec {s : State} (h : s.Wf) {fuel : Nat} (hf : s.avail < fuel + 25) :
    ∃ d, d ≤ s.avail ∧ (∀ j, j < d → j + 25 ≤ s.avail ∧ s.windowByte j ≠ headerSentinel) ∧
      seekHeader fuel s = s.advanceRd d ∧ (s.avail < d + 25 ∨ s.windowByte d = headerSentinel) := by
  induction fuel generalizing s with
  | zero => exact ⟨0, by omega, by omega, (State.advanceRd_zero h).symm, by omega⟩
  | succ fuel ih =>
    by_cases hc : 25 ≤ s.avail ∧ s.windowByte 0 ≠ headerSentinel
    · have ha : (s.advanceRd 1).avail = s.avail - 1 := State.avail_advanceRd h (by omega)
      obtain ⟨d, h1, h2, h3, h4⟩ := ih (h.advanceRd 1) (by omega)
      refine ⟨d + 1, by omega, fun j hj => ?_, ?_, ?_⟩
      · cases j with
        | zero => exact ⟨by omega, hc.2⟩
        | succ j =>
          have := h2 j (by omega)
          rw [State.windowByte_advanceRd, Nat.add_comm 1 j] at this
          exact ⟨by omega, this.2⟩
      · rw [seekHeader, if_pos hc, h3, State.advanceRd_advanceRd, Nat.add_comm 1 d]
      · rw [State.windowByte_advanceRd, Nat.add_comm 1 d] at h4
        exact h4.imp (by omega) id
    · refine ⟨0, by omega, by omega, ?_, ?_⟩
      · rw [seekHeader, if_neg hc, State.advanceRd_zero h]
      · by_cases h25 : 25 ≤ s.avail
        · exact .inr (not_not.1 fun hne => hc ⟨h25, hne⟩)
        · exact .inl (by omega)

/-! ### The frame search -/

/-- Everything NEXT's loop can do (R133, R138, R140): it emits the frame at the smallest accepted offset, or, when there
is none, stops with at most 24 bytes left, and `rej` says whether any candidate was rejected. -/
theorem searchFrame_spec {s : State} (h : s.Wf) {fuel : Nat} (hf : s.avail < fuel + 24) (rejected : Bool) :
    (∃ j, FirstAccepted s.cfg.footerRule s.window j ∧
      searchFrame fuel rejected s =
        (s.advanceRd (j + 25)).respond .ok (packetBytes (framePacket (frameAt s.window j)))) ∨
    ((∀ j, ¬ Accepted s.cfg.footerRule s.window j) ∧
      ∃ rej : Bool, (rej = true ↔ rejected = true ∨ ∃ j, Candidate s.window j) ∧
        searchFrame fuel rejected s =
          (s.advanceRd (s.avail - 24)).respond (if rej then .invalidFrame else .incompleteData) []) := by
  induction fuel generalizing s rejected with
  | zero =>
    have hn : ∀ j, ¬ Candidate s.window j := fun j hj => by
      have := hj.1; rw [State.length_window] at this; omega
    refine .inr ⟨fun j hj => hn j hj.1, rejected, by simp [hn], ?_⟩
    rw [searchFrame, show s.avail - 24 = 0 by omega, State.advanceRd_zero h]; rfl
  | succ fuel ih =>
    obtain ⟨d, hd, hskip, hseek, hstop⟩ := seekHeader_spec h (fuel := s.avail) (by omega)
    have hw := h.advanceRd d
    have havail : (s.advanceRd d).avail = s.avail - d := State.avail_advanceRd h hd
    have hwin : (s.advanceRd d).window = s.window.drop d := State.window_advanceRd h hd
    have hdl : d ≤ s.window.length := by simpa using hd
    have hcand : ∀ j, j < d → ¬ Candidate s.window j := fun j hj hc => by
      have := hskip j hj
      exact this.2 (by rw [← State.getD_window s (by omega)]; exact hc.2)
    simp only [searchFrame, hseek]
    by_cases hshort : (s.advanceRd d).avail < 25
    · rw [if_pos hshort]
      have hn : ∀ j, ¬ Candidate s.window j := fun j hj => by
        by_cases hjd : j < d
        · exact hcand j hjd hj
        · have := hj.1; rw [State.length_window] at this; omega
      refine .inr ⟨fun j hj => hn j hj.1, rejected, by simp [hn], ?_⟩
      have : d = s.avail - 24 := by
        rcases Nat.eq_zero_or_pos d with h0 | h0
        · omega
        · have := (hskip (d - 1) (by omega)).1; omega
      rw [← this]; rfl
    · rw [if_neg hshort]
      have hd25 : d + 25 ≤ s.avail := by omega
      have hhead : s.window.getD d 0 = headerSentinel := by
        rw [State.getD_window s (by omega)]; exact hstop.resolve_left (by omega)
      have hcd : Candidate s.window d := ⟨by simpa using hd25, hhead⟩
      have hF : (s.advanceRd d).candidate = frameAt s.window d := by
        rw [State.candidate_eq (by omega), hwin, frameAt_drop, Nat.add_zero]
      rw [hF]
      have hval : validate s.cfg.footerRule (frameAt s.window d) =
          if footerOk s.cfg.footerRule (s.window.getD (d + 24) 0) then Validation.ok
          else .invalidFooter (s.window.getD (d + 24) 0) := by
        have e : (frameAt s.window d).header = headerSentinel := hhead
        unfold validate
        rw [if_neg (not_not.2 e)]
        rfl
      simp only [State.advanceRd_cfg, hval]
      by_cases hf' : footerOk s.cfg.footerRule (s.window.getD (d + 24) 0) = true
      · refine .inl ⟨d, ⟨⟨hcd, hf'⟩, fun i hi hacc => hcand i hi hacc.1⟩, ?_⟩
        rw [if_pos hf', if_pos rfl, State.advanceRd_advanceRd]
      · rw [if_neg hf', if_neg (by simp), State.advanceRd_advanceRd]
        have havail' : (s.advanceRd (d + 1)).avail = s.avail - (d + 1) := State.avail_advanceRd h (by omega)
        have hwin' : (s.advanceRd (d + 1)).window = s.window.drop (d + 1) := State.window_advanceRd h (by omega)
        have hdl' : d + 1 ≤ s.window.length := by simp; omega
        have hlow : ∀ i, i < d + 1 → ¬ Accepted s.cfg.footerRule s.window i := fun i hi hacc => by
          rcases Nat.lt_succ_iff_lt_or_eq.1 hi with hi | rfl
          · exact hcand i hi hacc.1
          · exact hf' hacc.2
        rcases ih (h.advanceRd (d + 1)) (by omega) true with ⟨j, ⟨hacc, hfirst⟩, heq⟩ | ⟨hnone, rej, hrej, heq⟩
        · rw [hwin', State.advanceRd_cfg, accepted_drop hdl'] at hacc
          refine .inl ⟨d + 1 + j, ⟨hacc, fun i hi hai => ?_⟩, ?_⟩
          · by_cases hid : i < d + 1
            · exact hlow i hid hai
            · refine hfirst (i - (d + 1)) (by omega) ?_
              rw [hwin', State.advanceRd_cfg, accepted_drop hdl', show d + 1 + (i - (d + 1)) = i by omega]
              exact hai
          · rw [heq, hwin', frameAt_drop, State.advanceRd_advanceRd, Nat.add_assoc (d + 1)]
        · refine .inr ⟨fun i hai => ?_, rej, ?_, ?_⟩
          · by_cases hid : i < d + 1
            · exact hlow i hid hai
            · refine hnone (i - (d + 1)) ?_
              rw [hwin', State.advanceRd_cfg, accepted_drop hdl', show d + 1 + (i - (d + 1)) = i by omega]
              exact hai
          · rw [hrej]
            simp only [true_or, true_iff]
            exact .inr ⟨d, hcd⟩
          · rw [heq, State.advanceRd_advanceRd, havail', show d + 1 + (s.avail - (d + 1) - 24) = s.avail - 24 by omega]

/-! ### What the search leaves alone, in every state -/

theorem seekHeader_frame (fuel : Nat) (s : State) :
    (seekHeader fuel s).cfg = s.cfg ∧ (seekHeader fuel s).ring = s.ring ∧ (seekHeader fuel s).wr = s.wr ∧
      (seekHeader fuel s).program = s.program ∧ (seekHeader fuel s).responses = s.responses := by
  induction fuel generalizing s with
  | zero => simp [seekHeader]
  | succ fuel ih =>
    simp only [seekHeader]
    split
    · simpa using ih (s.advanceRd 1)
    · simp

theorem searchFrame_frame (fuel : Nat) (rejected : Bool) (s : State) :
    (searchFrame fuel rejected s).cfg = s.cfg ∧ (searchFrame fuel rejected s).ring = s.ring ∧
      (searchFrame fuel rejected s).wr = s.wr ∧ (searchFrame fuel rejected s).program = s.program ∧
      ∃ r : Response, (searchFrame fuel rejected s).responses = s.responses ++ [r] ∧
        (r.status = .ok ∧ r.result.length = 33 ∨
          (r.status = .invalidFrame ∨ r.status = .incompleteData) ∧ r.result = []) := by
  induction fuel generalizing rejected s with
  | zero => cases rejected <;> simp [searchFrame]
  | succ fuel ih =>
    have hseek := seekHeader_frame s.avail s
    simp only [searchFrame]
    split
    · cases rejected <;> simp [hseek]
    · split
      · simp [hseek, framePacket]
      · have := ih true ((seekHeader s.avail s).advanceRd 1)
        simpa [hseek] using this

end Sys2Proof.Machine
end

