-- ==== Sys2Proof/Laws/Exec.lean ====
section
/-! SUPPORT. Said once: everything `exec` and `step` can do, so that later proofs cite these cases and unfold no arm; and
what the codec's and the validator's shared functions come to. -/

namespace Sys2Proof.Machine

/-! ### Well-formedness through the interface fields -/

theorem State.Wf.respond {s : State} (h : s.Wf) (st : Status) (res : List Byte) : (s.respond st res).Wf :=
  ⟨h.legal, h.rd_lt, h.wr_lt, h.ring_wf, h.ring_lt⟩

theorem State.Wf.issue {s : State} (h : s.Wf) (rest : List Command) : (s.issue rest).Wf :=
  ⟨h.legal, h.rd_lt, h.wr_lt, h.ring_wf, h.ring_lt⟩

theorem State.LiveWritten.respond {s : State} (h : s.LiveWritten) (st : Status) (res : List Byte) :
    (s.respond st res).LiveWritten := h

theorem State.LiveWritten.issue {s : State} (h : s.LiveWritten) (rest : List Command) : (s.issue rest).LiveWritten := h

/-- Emitting in the statements' terms: a move of the read cursor and one response. -/
theorem State.advanceRd_respond (s : State) (n : Nat) (st : Status) (res : List Byte) :
    (s.advanceRd n).respond st res = State.answered { s with rd := (s.rd + n) % s.cfg.capacity } st res := rfl

/-! ### PUSH and NEXT, case by case -/

theorem exec_push_over {s : State} {block : List Byte} (h : s.avail + block.length > s.cfg.capacity - 1) :
    exec (.push block) s = .next (s.respond .bufferOverflow []) := by
  simp only [exec, execPush, if_pos h, State.raise_eq]

theorem exec_push_fits {s : State} {block : List Byte} (h : s.avail + block.length ≤ s.cfg.capacity - 1) :
    exec (.push block) s = .next ((s.pushBytes block).respond .ok []) := by
  simp only [exec, execPush, if_neg (Nat.not_lt.2 h)]

theorem exec_next_empty {s : State} (h : s.avail = 0) : exec .next s = .next (s.respond .emptyBuffer []) := by
  simp only [exec, execNext, if_pos h, State.raise_eq]

theorem exec_next_search {s : State} (h : s.avail ≠ 0) :
    exec .next s = .next (searchFrame (s.avail + 1) false s) := by
  simp only [exec, execNext, if_neg h]

/-! ### Everything a command can do -/

/-- A command other than PUSH and NEXT only responds; PUSH responds, or pushes and responds; NEXT responds, or searches. -/
theorem exec_cases (i : Instr) (s : State) :
    (i.opcode ≠ .push ∧ i.opcode ≠ .next ∧ ∃ st res, exec i s = .next (s.respond st res)) ∨
    (∃ block, i = .push block ∧
      (s.avail + block.length > s.cfg.capacity - 1 ∧ exec i s = .next (s.respond .bufferOverflow []) ∨
       s.avail + block.length ≤ s.cfg.capacity - 1 ∧ exec i s = .next ((s.pushBytes block).respond .ok []))) ∨
    (i = .next ∧ (s.avail = 0 ∧ exec i s = .next (s.respond .emptyBuffer []) ∨
       s.avail ≠ 0 ∧ exec i s = .next (searchFrame (s.avail + 1) false s))) := by
  cases i with
  | push block =>
    refine .inr (.inl ⟨block, rfl, ?_⟩)
    rcases Nat.lt_or_ge (s.cfg.capacity - 1) (s.avail + block.length) with h | h
    · exact .inl ⟨h, exec_push_over h⟩
    · exact .inr ⟨h, exec_push_fits h⟩
  | next =>
    refine .inr (.inr ⟨rfl, ?_⟩)
    by_cases h : s.avail = 0
    · exact .inl ⟨h, exec_next_empty h⟩
    · exact .inr ⟨h, exec_next_search h⟩
  | decodeFlags b => exact .inl ⟨by simp [Instr.opcode], by simp [Instr.opcode], _, _, rfl⟩
  | status => exact .inl ⟨by simp [Instr.opcode], by simp [Instr.opcode], _, _, rfl⟩
  | _ =>
    refine .inl ⟨by simp [Instr.opcode], by simp [Instr.opcode], ?_⟩
    simp only [exec, execValidate, execDecode, execEncode, execEncodeFrame, execParse, State.ifWellFormed,
      State.afterValidation]
    repeat' split
    all_goals exact ⟨_, _, rfl⟩

/-- Everything a step can do: idle, execute the decoded command, or answer a transaction that is no command. -/
theorem step_cases (s : State) :
    (s.program = [] ∧ step s = .next s) ∨
    ∃ c rest, s.program = c :: rest ∧
      ((∃ i, decode c = .ok i ∧ step s = exec i (s.issue rest)) ∨
       (∃ e, decode c = .error e ∧ ∃ st, (st = .illegalCommand ∨ st = .malformedCommand) ∧
          step s = .next ((s.issue rest).respond st []))) := by
  cases hp : s.program with
  | nil => exact .inl ⟨rfl, by simp [step, hp]⟩
  | cons c rest =>
    refine .inr ⟨c, rest, rfl, ?_⟩
    cases hd : decode c with
    | ok i => exact .inl ⟨i, rfl, by simp [step, hp, hd]⟩
    | error e =>
      refine .inr ⟨e, rfl, ?_⟩
      cases e <;> simp [step, hp, hd]

/-- A run goes on from the state a step leaves. -/
theorem run_succ {s t : State} (n : Nat) (h : step s = .next t) :
    Host.Core.run Sys2Proof.core (n + 1) s = Host.Core.run Sys2Proof.core n t := by
  have h' : Sys2Proof.core.step s = .next t := h
  simp only [Host.Core.run, h']

/-! ### The shared functions of the codec and the validator -/

/-- The response to a validation, the three cases of R100 side by side. -/
theorem State.afterValidation_validate (F : Frame) (s k : State) (r : FooterRule) :
    s.afterValidation (validate r F) k =
      if F.header ≠ 0x0F then s.respond .invalidHeader [F.header]
      else if F.footer = 0x00 ∨ (r = .lowNibble04 ∧ F.footer &&& 0x0F = 0x04) then k
      else s.respond .invalidFooter [F.footer] := by
  unfold validate State.afterValidation
  by_cases h : F.header = headerSentinel
  · have h' : F.header = 0x0F := h
    cases r <;> simp [h', footerOk] <;> split_ifs <;> simp_all
  · have h' : F.header ≠ 0x0F := h
    rw [if_pos h, if_pos h']
    rfl

/-- The flags result byte is the low nibble of the flag byte. -/
theorem flagsByte_decodeFlags (b : Byte) : flagsByte (decodeFlags b) = b &&& 0x0F := by
  revert b; decide

/-- The little-endian bytes of a number, by division. -/
theorem u16Bytes_ofNat (v : Nat) : u16Bytes (BitVec.ofNat 16 v) = [BitVec.ofNat 8 v, BitVec.ofNat 8 (v / 256)] := by
  have h1 : (BitVec.ofNat 16 v).extractLsb' 0 8 = BitVec.ofNat 8 v := by
    apply BitVec.eq_of_toNat_eq; simp; try omega
  have h2 : (BitVec.ofNat 16 v).extractLsb' 8 8 = BitVec.ofNat 8 (v / 256) := by
    apply BitVec.eq_of_toNat_eq; simp [Nat.shiftRight_eq_div_pow]; try omega
  simp [u16Bytes, h1, h2]

/-- The channel mask bit by bit. -/
theorem testBit_channelMask (j : Nat) : (0x7FF : Nat).testBit j = decide (j < 11) := Nat.testBit_two_pow_sub_one 11 j

/-- Truncating a channel value, bit by bit (R113). -/
theorem testBit_truncateChannel (v : U16) (j : Nat) :
    (truncateChannel v).testBit j = (decide (j < 11) && v.getLsbD j) := by
  rw [truncateChannel, Nat.testBit_and, testBit_channelMask, Bool.and_comm]; rfl

/-! ### States of the same view -/

theorem State.SameView.respond {s t : State} (h : s.SameView t) (st : Status) (res : List Byte) :
    (s.respond st res).SameView (t.respond st res) :=
  ⟨h.cfg, h.window, h.program, by simp [h.responses]⟩

theorem State.SameView.avail {s t : State} (h : s.SameView t) : s.avail = t.avail := by
  rw [← State.length_window, h.window, State.length_window]

theorem State.SameView.advanceRd {s t : State} (hs : s.Wf) (ht : t.Wf) (h : s.SameView t) {n : Nat} (hn : n ≤ s.avail) :
    (s.advanceRd n).SameView (t.advanceRd n) :=
  ⟨h.cfg, by rw [State.window_advanceRd hs hn, State.window_advanceRd ht (h.avail ▸ hn), h.window], h.program, h.responses⟩

end Sys2Proof.Machine
end

