-- ==== Sys2Proof/Laws/PerInstr.lean ====
section
/-! SUPPORT. Statements proved one command at a time. Family EncodeShape: the encoding of a well-formed command has its
row's opcode and a length its row's format accepts (30_encoding.md R76, R80, R84). -/

namespace Sys2Proof.Laws

def EncodeShape.Statement (i : Instr) : Prop :=
  i.WellFormed → (encode i).op = i.opcode.code ∧ i.opcode.format.accepts (encode i).opnd.length = true

theorem EncodeShape.validate (F : Frame) : EncodeShape.Statement (.validate F) := by
  intro h
  have : F.payload.length = 22 := by simpa using h
  simp [encode, Instr.operandBytes, Instr.opcode, Opcode.format, Format.accepts, Format.length, this]

theorem EncodeShape.decode (F : Frame) : EncodeShape.Statement (.decode F) := by
  intro h
  have : F.payload.length = 22 := by simpa using h
  simp [encode, Instr.operandBytes, Instr.opcode, Opcode.format, Format.accepts, Format.length, this]

theorem EncodeShape.encode (ch : List U16) : EncodeShape.Statement (.encode ch) := by
  intro h
  have : ch.length = 16 := by simpa using h
  simp [Sys2Proof.encode, Instr.operandBytes, Instr.opcode, Opcode.format, Format.accepts, Format.length, this]

theorem EncodeShape.decodeFlags (b : Byte) : EncodeShape.Statement (.decodeFlags b) := by
  intro _
  simp [Sys2Proof.encode, Instr.operandBytes, Instr.opcode, Opcode.format, Format.accepts, Format.length]

theorem EncodeShape.encodeFrame (ch : List U16) (f : Byte) : EncodeShape.Statement (.encodeFrame ch f) := by
  intro h
  have : ch.length = 16 := by simpa using h
  simp [Sys2Proof.encode, Instr.operandBytes, Instr.opcode, Opcode.format, Format.accepts, Format.length, this]

theorem EncodeShape.parse (F : Frame) : EncodeShape.Statement (.parse F) := by
  intro h
  have : F.payload.length = 22 := by simpa using h
  simp [Sys2Proof.encode, Instr.operandBytes, Instr.opcode, Opcode.format, Format.accepts, Format.length, this]

theorem EncodeShape.push (block : List Byte) : EncodeShape.Statement (.push block) := by
  intro _
  simp [Sys2Proof.encode, Instr.opcode, Opcode.format, Format.accepts, Format.length]

theorem EncodeShape.next : EncodeShape.Statement .next := by
  intro _
  simp [Sys2Proof.encode, Instr.operandBytes, Instr.opcode, Opcode.format, Format.accepts, Format.length]

theorem EncodeShape.status : EncodeShape.Statement .status := by
  intro _
  simp [Sys2Proof.encode, Instr.operandBytes, Instr.opcode, Opcode.format, Format.accepts, Format.length]

end Sys2Proof.Laws
end

