-- ==== Sys2Proof/Tests/Slice0.lean ====
section
/-! SUPPORT. Tests and witnesses. Expected values come from spec/ (95_test_vectors.md, or the encodings of
30_encoding.md), never from the model. The witnesses show that the hypotheses of the obligations can be met. -/

namespace Sys2Proof.Tests

open Sys2Proof Sys2Proof.Machine

/-! ### Helpers -/

/-- FRAME0 (30_encoding.md R86). -/
def frame0Bytes : List Byte := 0x0F :: List.replicate 24 0x00

/-- FX of 95_test_vectors.md. -/
def fxBytes : List Byte :=
  [0x0F, 0xDC, 0xE5, 0x2E, 0x77, 0xB9, 0xCB, 0x5D, 0xEE, 0x72, 0x97, 0xBB] ++
  [0xDC, 0xE5, 0x2E, 0x77, 0xB9, 0xCB, 0x5D, 0xEE, 0x72, 0x97, 0xBB, 0x00, 0x00]

/-- The payload of FY of 95_test_vectors.md. -/
def fyPayload : List Byte :=
  [0x07, 0x58, 0xC3, 0x33, 0x66, 0x72, 0x99, 0xFD, 0x7C, 0x69, 0x58] ++
  [0x27, 0x5B, 0xDC, 0xFB, 0xA6, 0x78, 0xCB, 0x8D, 0xFE, 0x75, 0xBC]

/-- FY of 95_test_vectors.md. -/
def fyBytes : List Byte := 0x0F :: fyPayload ++ [0x0A, 0x00]

/-- FY by its fields. -/
def fy : Frame := { header := 0x0F, payload := fyPayload, flagByte := 0x0A, footer := 0x00 }

/-- FX by its fields. -/
def fx : Frame := { header := 0x0F, payload := (fxBytes.drop 1).take 22, flagByte := 0x00, footer := 0x00 }

/-- A frame with a payload of zeros. -/
def zeroFrame (header flagByte footer : Byte) : Frame :=
  { header := header, payload := List.replicate 22 0x00, flagByte := flagByte, footer := footer }

/-- The channel values of FY: 100 i + 7. -/
def fyChannels : List U16 := (List.range 16).map fun i => BitVec.ofNat 16 (100 * i + 7)

/-- This hardware's capacity with the other footer rule. -/
def lowNibble : Config := { capacity := 50, footerRule := .lowNibble04 }

/-- A state whose cursors stood at `k` when `bs` was pushed. -/
def filled (c : Config) (k : Nat) (bs : List Byte) : State := ({ State.resetWith c with rd := k, wr := k } : State).pushBytes bs

/-- The responses, the cursors and avail() after a step. -/
def seen : Host.Outcome State Fault Refusal → Option (List Response × Nat × Nat × Nat)
  | .next t => some (t.responses, t.rd, t.wr, t.avail)
  | .fault _ => none
  | .refused _ => none

/-- An OK response. -/
def ok (res : List Byte) : Response := { status := .ok, result := res }

theorem filled_wf {c : Config} {k : Nat} (bs : List Byte) (hc : c.Legal) (hk : k < c.capacity) : (filled c k bs).Wf :=
  State.Wf.pushBytes (s := { State.resetWith c with rd := k, wr := k }) ⟨hc, hk, hk, rfl, by simp [State.resetWith]⟩ bs

theorem start_avail (c : Config) (k : Nat) : ({ State.resetWith c with rd := k, wr := k } : State).avail = 0 := by
  simp [State.avail, occupancy]

theorem filled_window {c : Config} {k : Nat} (bs : List Byte) (hc : c.Legal) (hk : k < c.capacity)
    (hb : bs.length < c.capacity) : (filled c k bs).window = bs := by
  have h0 := start_avail c k
  have hw : ({ State.resetWith c with rd := k, wr := k } : State).window = [] := by simp [State.window, h0]
  have := State.window_pushBytes (s := { State.resetWith c with rd := k, wr := k })
    ⟨hc, hk, hk, rfl, by simp [State.resetWith]⟩ bs (by rw [h0]; simpa [State.resetWith] using hb)
  rw [hw, List.nil_append] at this
  exact this

theorem filled_avail {c : Config} {k : Nat} (bs : List Byte) (hc : c.Legal) (hk : k < c.capacity)
    (hb : bs.length < c.capacity) : (filled c k bs).avail = bs.length := by
  rw [← State.length_window, filled_window bs hc hk hb]

theorem filled_inv {c : Config} {k : Nat} (bs : List Byte) (hc : c.Legal) (hk : k < c.capacity)
    (hb : bs.length < c.capacity) : (filled c k bs).Inv := by
  refine ⟨filled_wf bs hc hk, ?_⟩
  have h0 := start_avail c k
  refine State.LiveWritten.pushBytes (s := { State.resetWith c with rd := k, wr := k })
    ⟨hc, hk, hk, rfl, by simp [State.resetWith]⟩ (fun j hj => ?_) bs (by rw [h0]; simpa [State.resetWith] using hb)
  rw [h0] at hj
  exact absurd hj (Nat.not_lt_zero j)

/-! ### WellFormed: each check refuses an ill-formed term, and accepts the right length -/

theorem test_wf_refuses_validate :
    (Instr.validate { fy with payload := fyPayload.drop 1 }).wellFormed = false ∧ (Instr.validate fy).wellFormed = true := by
  decide
theorem test_wf_refuses_decode :
    (Instr.decode { fy with payload := 0x00 :: fyPayload }).wellFormed = false ∧ (Instr.decode fy).wellFormed = true := by
  decide
theorem test_wf_refuses_encode :
    (Instr.encode (List.replicate 15 0)).wellFormed = false ∧ (Instr.encode (List.replicate 17 0)).wellFormed = false ∧
    (Instr.encode (List.replicate 16 0)).wellFormed = true := by decide
theorem test_wf_refuses_encodeFrame :
    (Instr.encodeFrame (List.replicate 15 0) 0).wellFormed = false ∧
    (Instr.encodeFrame (List.replicate 16 0) 0).wellFormed = true := by decide
theorem test_wf_refuses_parse :
    (Instr.parse { fy with payload := [] }).wellFormed = false ∧ (Instr.parse fy).wellFormed = true := by decide
theorem test_wf_accepts_the_rest :
    (Instr.decodeFlags 0xFF).wellFormed = true ∧ (Instr.push []).wellFormed = true ∧ Instr.next.wellFormed = true ∧
    Instr.status.wellFormed = true := by decide

/-! ### Decoding: a word of every constructor, written out from 30_encoding.md R76, R77 and R80 -/

theorem test_decode_validate : decode { op := 0x01, opnd := fyBytes } = .ok (.validate fy) := by decide
theorem test_decode_decode : decode { op := 0x02, opnd := fyBytes } = .ok (.decode fy) := by decide
/-- P4, command 5: its 32 operand bytes as the spec writes them. -/
theorem test_decode_encode :
    decode { op := 0x03, opnd := [0x07, 0x00, 0x6B, 0x00, 0xCF, 0x00, 0x33, 0x01, 0x97, 0x01, 0xFB, 0x01, 0x5F, 0x02] ++
      [0xC3, 0x02, 0x27, 0x03, 0x8B, 0x03, 0xEF, 0x03, 0x53, 0x04, 0xB7, 0x04, 0x1B, 0x05, 0x7F, 0x05, 0xE3, 0x05] } =
    .ok (.encode fyChannels) := by decide
theorem test_decode_decodeFlags : decode { op := 0x04, opnd := [0xFA] } = .ok (.decodeFlags 0xFA) := by decide
/-- P4, command 1. -/
theorem test_decode_encodeFrame :
    decode { op := 0x05, opnd := [0xFF, 0x07, 0x00, 0x08, 0xFF, 0x0F, 0x00, 0x04, 0x00, 0x00, 0x01, 0x00, 0x02, 0x00] ++
      [0x03, 0x00, 0x04, 0x00, 0x05, 0x00, 0x06, 0x00, 0x07, 0x00, 0x08, 0x00, 0x09, 0x00, 0x0A, 0x00, 0x0B, 0x00, 0xFA] } =
    .ok (.encodeFrame [2047, 2048, 4095, 1024, 0, 1, 2, 3, 4, 5, 6, 7, 8, 9, 10, 11] 0xFA) := by decide
theorem test_decode_parse : decode { op := 0x06, opnd := fyBytes } = .ok (.parse fy) := by decide
theorem test_decode_push : decode { op := 0x10, opnd := [0xAA, 0xBB, 0xCC] } = .ok (.push [0xAA, 0xBB, 0xCC]) := by decide
theorem test_decode_next : decode { op := 0x11, opnd := [] } = .ok .next := by decide
theorem test_decode_status : decode { op := 0x12, opnd := [] } = .ok .status := by decide

/-- V-ILL-1 to V-ILL-4. -/
theorem test_decode_rejects_illegal :
    decode { op := 0x00, opnd := [] } = .error (.illegal 0x00) ∧ decode { op := 0x07, opnd := fyBytes } = .error (.illegal 0x07) ∧
    decode { op := 0x13, opnd := [] } = .error (.illegal 0x13) ∧ decode { op := 0xFF, opnd := [1, 2, 3] } = .error (.illegal 0xFF) := by
  decide
/-- V-VAL-8 and V-MAL-1 to V-MAL-5. -/
theorem test_decode_rejects_malformed :
    decode { op := 0x01, opnd := fyBytes.take 24 } = .error (.malformed .validate 24) ∧
    decode { op := 0x03, opnd := List.replicate 31 0 } = .error (.malformed .encode 31) ∧
    decode { op := 0x04, opnd := [] } = .error (.malformed .decodeFlags 0) ∧
    decode { op := 0x05, opnd := List.replicate 32 0 } = .error (.malformed .encodeFrame 32) ∧
    decode { op := 0x12, opnd := [0] } = .error (.malformed .status 1) ∧
    decode { op := 0x06, opnd := fyBytes ++ [0] } = .error (.malformed .parse 26) := by decide
theorem test_table_words :
    decodeTableWord 8 0x11 = some .next ∧ decodeTableWord 8 0x10 = some (.push []) ∧
    decodeTableWord 16 0xF504 = some (.decodeFlags 0xF5) ∧ decodeTableWord 8 0x00 = none := by decide

/-! ### One step of each command -/

/-- V-VAL-6: both sentinels wrong. -/
theorem test_validate_header_first :
    seen (exec (.validate (zeroFrame 0xF0 0x00 0xFF)) State.reset) =
      some ([{ status := .invalidHeader, result := [0xF0] }], 0, 0, 0) := by decide
/-- V-VAL-5 and V-VAL-4b, under LOW_NIBBLE_04. -/
theorem test_validate_low_nibble :
    seen (exec (.validate (zeroFrame 0x0F 0x00 0x40)) (State.resetWith lowNibble)) =
      some ([{ status := .invalidFooter, result := [0x40] }], 0, 0, 0) ∧
    seen (exec (.validate (zeroFrame 0x0F 0x00 0x14)) (State.resetWith lowNibble)) = some ([ok []], 0, 0, 0) := by decide

/-- V-DEC-9 (the result bytes are those of P4, command 5's operand). -/
theorem test_decode_fy :
    seen (exec (.decode fy) State.reset) = some ([ok (
      [0x07, 0x00, 0x6B, 0x00, 0xCF, 0x00, 0x33, 0x01, 0x97, 0x01, 0xFB, 0x01, 0x5F, 0x02] ++
      [0xC3, 0x02, 0x27, 0x03, 0x8B, 0x03, 0xEF, 0x03, 0x53, 0x04, 0xB7, 0x04, 0x1B, 0x05, 0x7F, 0x05, 0xE3, 0x05])], 0, 0, 0) := by
  decide
/-- V-DEC-4: payload bit 175 is bit 10 of channel 15. -/
theorem test_decode_top_bit :
    decodeChannels { header := 0x0F, payload := List.replicate 21 0x00 ++ [0x80], flagByte := 0x00, footer := 0x00 } =
      List.replicate 15 0 ++ [1024] := by decide

/-- V-ENC-5. -/
theorem test_encode_counting :
    seen (exec (.encode [0, 1, 2, 3, 4, 5, 6, 7, 8, 9, 10, 11, 12, 13, 14, 15]) State.reset) = some ([ok (
      [0x00, 0x08, 0x80, 0x00, 0x06, 0x40, 0x80, 0x02, 0x18, 0xE0, 0x00] ++
      [0x08, 0x48, 0x80, 0x02, 0x16, 0xC0, 0x80, 0x06, 0x38, 0xE0, 0x01])], 0, 0, 0) := by decide
/-- V-ENC-4b: 65535 truncates to 2047 and does not spill. -/
theorem test_encode_truncates :
    seen (exec (.encode (65535 :: List.replicate 15 0)) State.reset) =
      some ([ok ([0xFF, 0x07] ++ List.replicate 20 0x00)], 0, 0, 0) := by decide

/-- V-FLG-9 and V-FLG-7. -/
theorem test_decodeFlags_ignores_high_bits :
    seen (exec (.decodeFlags 0xF5) State.reset) = some ([ok [0x05]], 0, 0, 0) ∧
    seen (exec (.decodeFlags 0xF0) State.reset) = some ([ok [0x00]], 0, 0, 0) := by decide
/-- V-FLG-9. -/
theorem test_decodeFlags_record :
    decodeFlags 0xF5 = { d1 := true, d2 := false, frameLost := true, failsafe := false } := by decide

/-- P4, command 1. -/
theorem test_encodeFrame_p4 :
    seen (exec (.encodeFrame [2047, 2048, 4095, 1024, 0, 1, 2, 3, 4, 5, 6, 7, 8, 9, 10, 11] 0xFA) State.reset) = some ([ok (
      [0x0F, 0xFF, 0x07, 0xC0, 0xFF, 0x01, 0x08, 0x80, 0x00, 0x08, 0x60, 0x00, 0x04] ++
      [0x28, 0x80, 0x01, 0x0E, 0x80, 0x80, 0x04, 0x28, 0x60, 0x01, 0x0A, 0x00])], 0, 0, 0) := by decide
/-- V-EF-3, and the literal FRAME0 (R86). -/
theorem test_encodeFrame_drops_high_flags :
    seen (exec (.encodeFrame (List.replicate 16 0) 0xFF) State.reset) =
      some ([ok (0x0F :: (List.replicate 22 0x00 ++ [0x0F, 0x00]))], 0, 0, 0) ∧ frame0 = frame0Bytes := by decide

/-- V-PAR-2. -/
theorem test_parse_fy :
    seen (exec (.parse fy) State.reset) = some ([ok (
      [0x07, 0x00, 0x6B, 0x00, 0xCF, 0x00, 0x33, 0x01, 0x97, 0x01, 0xFB, 0x01, 0x5F, 0x02, 0xC3, 0x02] ++
      [0x27, 0x03, 0x8B, 0x03, 0xEF, 0x03, 0x53, 0x04, 0xB7, 0x04, 0x1B, 0x05, 0x7F, 0x05, 0xE3, 0x05, 0x0A])], 0, 0, 0) := by
  decide
/-- V-PAR-6: a frame shifted by one byte is not realigned. -/
theorem test_parse_does_not_realign :
    seen (exec (.parse (Frame.ofWindow fun k => (fyBytes.drop 1 ++ [0x0F]).getD k 0)) State.reset) =
      some ([{ status := .invalidHeader, result := [0x07] }], 0, 0, 0) := by decide

set_option maxRecDepth 4000 in
/-- V-PUSH-7: the block wraps. -/
theorem test_push_wraps :
    seen (exec (.push (List.replicate 10 0x44)) (filled Config.hardware 45 [])) = some ([ok []], 45, 5, 10) := by decide
set_option maxRecDepth 4000 in
/-- V-PUSH-8 and V-PUSH-9: the smallest legal capacity holds 25 bytes. -/
theorem test_push_smallest_capacity :
    seen (exec (.push (List.replicate 25 0x11)) (State.resetWith { capacity := 26, footerRule := .strict })) =
      some ([ok []], 0, 25, 25) ∧
    seen (exec (.push (List.replicate 26 0x11)) (State.resetWith { capacity := 26, footerRule := .strict })) =
      some ([{ status := .bufferOverflow, result := [] }], 0, 0, 0) := by decide

set_option maxRecDepth 10000 in
/-- V-NEXT-4: a false header is rejected, a byte is discarded, FX is emitted: sixteen times 1500. -/
theorem test_next_resyncs :
    seen (exec .next (filled Config.hardware 0 ([0x0F, 0xAA] ++ fxBytes))) =
      some ([ok ((List.replicate 16 [0xDC, 0x05]).flatten ++ [0x00])], 27, 27, 0) := by decide
set_option maxRecDepth 10000 in
/-- V-NEXT-12: one candidate, rejected; 24 bytes are kept. -/
theorem test_next_invalid_frame :
    seen (exec .next (filled Config.hardware 0 (List.replicate 25 0x0F))) =
      some ([{ status := .invalidFrame, result := [] }], 1, 25, 24) := by decide

/-- V-STAT-3. -/
theorem test_status_configuration :
    seen (exec .status (State.resetWith { capacity := 300, footerRule := .lowNibble04 })) =
      some ([ok [0x00, 0x00, 0x2C, 0x01, 0x01]], 0, 0, 0) := by decide
set_option maxRecDepth 10000 in
/-- V-STAT-2. -/
theorem test_status_full :
    seen (exec .status (filled Config.hardware 0 (List.replicate 49 0x11))) =
      some ([ok [0x31, 0x00, 0x32, 0x00, 0x00]], 0, 49, 49) := by decide

set_option maxRecDepth 10000 in
/-- V-ILL-4: the buffered frame stays. -/
theorem test_illegal_changes_nothing :
    seen (step { filled Config.hardware 0 frame0Bytes with program := [{ op := 0xFF, opnd := [1, 2, 3] }] }) =
      some ([{ status := .illegalCommand, result := [] }], 0, 25, 25) := by decide
set_option maxRecDepth 10000 in
/-- V-NEXT-13: NEXT with an operand byte. -/
theorem test_malformed_changes_nothing :
    seen (step { filled Config.hardware 0 frame0Bytes with program := [{ op := 0x11, opnd := [0] }] }) =
      some ([{ status := .malformedCommand, result := [] }], 0, 25, 25) := by decide

theorem test_fetch_runs_the_word :
    step (State.reset.withFetchWord 8 0x11) = exec .next State.reset := rfl

/-- Lines of P4, P1 and R85's syntax. -/
theorem test_listing_lines :
    listingLine (.decodeFlags 0xFA) = "DECODE_FLAGS 0xFA" ∧ listingLine (.push [0xAA, 0xBB, 0xCC]) = "PUSH AA BB CC" ∧
    listingLine .next = "NEXT" ∧ listingLine (.encodeFrame [2047, 12] 0xFA) = "ENCODE_FRAME 2047, 12 ; 0xFA" := by decide

/-! ### Witnesses: reset, the invariant, the step -/

theorem hardware_legal : Config.hardware.Legal := by decide
theorem lowNibble_legal : lowNibble.Legal := by decide

/-- Capacities at both ends of the legal range (ResetEmptiesTheRing, ResetMeetsTheInvariant, EveryRunIsSafe). -/
theorem witness_legal_configurations :
    Config.Legal { capacity := 26, footerRule := .strict } ∧ Config.Legal { capacity := 65535, footerRule := .lowNibble04 } := by
  decide

/-- A frame buffered across the wrap point, and NEXT issued. -/
def running : State := { filled Config.hardware 40 fyBytes with program := [{ op := 0x11, opnd := [] }] }

theorem running_inv : running.Inv := by
  have h := filled_inv (c := Config.hardware) (k := 40) fyBytes (by decide) (by decide) (by decide)
  exact ⟨⟨h.wf.legal, h.wf.rd_lt, h.wf.wr_lt, h.wf.ring_wf, h.wf.ring_lt⟩, h.live⟩

set_option maxRecDepth 10000 in
/-- V-NEXT-10: FY is emitted (StepKeepsStateWellFormed, StepKeepsLiveCellsWritten, ConfigurationNeverChanges,
RingIsFirstInFirstOut, OnlyPushAndNextWriteTheirState, DeliveredStatusesAreInTheTable). -/
theorem witness_step_of_a_live_state : running.Inv ∧ running.Wf ∧ running.program ≠ [] ∧
    seen (step running) = some ([ok (channelBytes fyChannels ++ [0x0A])], 15, 15, 0) :=
  ⟨running_inv, running_inv.wf, by simp [running], by decide⟩

/-- The cursors at their top value (AvailIsTheCursorDistance, CursorsFitTheirRegisters, EmptyPushAlwaysSucceeds,
StatusReportsOccupancyAndConfiguration, NextConsumesUnlessShort). -/
theorem witness_cursor_at_the_top : (filled Config.hardware 49 []).Wf ∧ (filled Config.hardware 49 []).rd = 49 :=
  ⟨filled_wf [] (by decide) (by decide), rfl⟩

/-- A full ring, 49 bytes, all 49 offsets of the window in use (AvailIsTheCursorDistance). -/
theorem witness_full_ring : (filled Config.hardware 49 (List.replicate 49 0x0F)).Wf ∧
    (filled Config.hardware 49 (List.replicate 49 0x0F)).avail = 49 :=
  ⟨filled_wf _ (by decide) (by decide), filled_avail _ (by decide) (by decide) (by decide)⟩

/-- StepRunsTheDecodedCommand and EveryCommandGetsOneResponse. -/
theorem witness_step_decodes :
    running.program = { op := 0x11, opnd := [] } :: [] ∧ decode { op := 0x11, opnd := [] } = .ok .next := ⟨rfl, by decide⟩

theorem witness_idle : State.reset.program = [] := rfl

/-- A state with one transaction to issue. -/
def issuing (op : Byte) (opnd : List Byte) : State := { State.reset with program := [{ op := op, opnd := opnd }] }

/-- IllegalOpcodesAreAnswered: every clause at both ends of its range. -/
theorem witness_illegal_opcodes :
    (issuing 0x00 []).program = [{ op := 0x00, opnd := [] }] ∧ (0x00 : Byte).toNat = 0x00 ∧
    (0x07 ≤ (0x07 : Byte).toNat ∧ (0x07 : Byte).toNat ≤ 0x0F) ∧ (0x07 ≤ (0x0F : Byte).toNat ∧ (0x0F : Byte).toNat ≤ 0x0F) ∧
    0x13 ≤ (0x13 : Byte).toNat ∧ 0x13 ≤ (0xFF : Byte).toNat := by decide

/-- WrongLengthsAreAnswered: every clause, one byte short or one byte long. -/
theorem witness_wrong_lengths :
    (issuing 0x01 (fyBytes.take 24)).program = [{ op := 0x01, opnd := fyBytes.take 24 }] ∧
    (fyBytes.take 24).length ≠ 25 ∧ (fyBytes ++ [0]).length ≠ 25 ∧ (List.replicate 31 (0 : Byte)).length ≠ 32 ∧
    (List.replicate 33 (0 : Byte)).length ≠ 32 ∧ ([] : List Byte).length ≠ 1 ∧ (List.replicate 32 (0 : Byte)).length ≠ 33 ∧
    ([0] : List Byte).length ≠ 0 := by decide

/-- IllFormedTermsAnswerMalformed: one term of each command that has an ill-formed one. -/
theorem witness_ill_formed_terms :
    ¬ (Instr.validate { fy with payload := [] }).WellFormed ∧ ¬ (Instr.decode { fy with payload := [] }).WellFormed ∧
    ¬ (Instr.encode []).WellFormed ∧ ¬ (Instr.encodeFrame [] 0).WellFormed ∧
    ¬ (Instr.parse { fy with payload := [] }).WellFormed := by decide

/-- The status a command answers with from a state. -/
def statusOf (i : Instr) (s : State) : Option Status :=
  match exec i s with
  | .next t => t.responses.getLast?.map (·.status)
  | .fault _ => none
  | .refused _ => none

set_option maxRecDepth 10000 in
/-- ResponseLengthsFollowTheTables and StatusesComeFromTheirCommands: every status a command can answer with. -/
theorem witness_statuses_of_the_stateless :
    statusOf (.validate fy) State.reset = some .ok ∧
    statusOf (.validate (zeroFrame 0xF0 0 0)) State.reset = some .invalidHeader ∧
    statusOf (.validate (zeroFrame 0x0F 0 4)) State.reset = some .invalidFooter ∧
    statusOf (.decode fy) State.reset = some .ok ∧ statusOf (.encode fyChannels) State.reset = some .ok ∧
    statusOf (.decodeFlags 0xFF) State.reset = some .ok ∧ statusOf (.encodeFrame fyChannels 0x0A) State.reset = some .ok ∧
    statusOf (.parse fy) State.reset = some .ok ∧
    statusOf (.parse (zeroFrame 0xF0 0 0)) State.reset = some .invalidHeader ∧
    statusOf (.parse (zeroFrame 0x0F 0 4)) State.reset = some .invalidFooter := by decide
set_option maxRecDepth 10000 in
/-- The same for the synchronizer's commands. -/
theorem witness_statuses_of_the_synchronizer :
    statusOf (.push [1]) State.reset = some .ok ∧
    statusOf (.push (List.replicate 50 0)) State.reset = some .bufferOverflow ∧
    statusOf .next State.reset = some .emptyBuffer ∧ statusOf .next (filled Config.hardware 0 [1]) = some .incompleteData ∧
    statusOf .next (filled Config.hardware 0 (List.replicate 25 0x0F)) = some .invalidFrame ∧
    statusOf .next (filled Config.hardware 40 fyBytes) = some .ok ∧ statusOf .status State.reset = some .ok := by decide

/-- DeliveredStatusesAreInTheTable, the response decoder: both clauses at their boundaries. -/
theorem witness_refused_statuses :
    ((0x07 : Byte) = 0x07 ∨ 0x0A ≤ (0x07 : Byte).toNat) ∧ 0x0A ≤ (0x0A : Byte).toNat ∧ 0x0A ≤ (0xFF : Byte).toNat := by decide

set_option maxRecDepth 10000 in
/-- ErrorsWriteOnlyTheReadCursorOfNext: an error that changes nothing, and one that moves the read cursor. -/
theorem witness_errors :
    seen (step (issuing 0x10 (List.replicate 50 0x11))) = some ([{ status := .bufferOverflow, result := [] }], 0, 0, 0) ∧
    seen (step { filled Config.hardware 0 (List.replicate 25 0x0F) with program := [{ op := 0x11, opnd := [] }] }) =
      some ([{ status := .invalidFrame, result := [] }], 1, 25, 24) := by decide

/-! ### Witnesses: encodings -/

/-- DecodeInvertsEncode, CommandLengthsFollowTheirFormats, ListingRunsLineByLine: well-formed commands of every kind. -/
theorem witness_well_formed_commands :
    ∀ i ∈ [Instr.validate fy, .decode fy, .encode fyChannels, .decodeFlags 0xFF, .encodeFrame fyChannels 0x0F, .parse fy,
      .push [], .push [0xFF], .next, .status], i.WellFormed := by decide

/-- EncodeInvertsDecode: a transaction that decodes. -/
theorem witness_decodes : decode { op := 0x01, opnd := fyBytes } = .ok (.validate fy) ∧
    (∀ block, decode { op := 0x10, opnd := block } = .ok (.push block)) := ⟨test_decode_validate, fun _ => rfl⟩

/-! ### Witnesses: validator and codec -/

/-- ValidateChecksTheSentinels, DecodeFollowsTheByteExpressions, ChannelBitsComeFromTheirPayloadBits (channel 15, bits 10,
11 and 15), ParseValidatesThenDecodes. -/
theorem witness_payload_length : fy.payload.length = 22 ∧ (zeroFrame 0xF0 0 0).payload.length = 22 ∧
    (zeroFrame 0x0F 0 4).payload.length = 22 ∧ 15 < 16 ∧ 10 < 16 ∧ 11 < 16 := by decide

/-- SentinelRejectionIsTotal: a wrong header, and a wrong footer under each rule. -/
theorem witness_bad_sentinels : (zeroFrame 0x0E 0 0).header ≠ 0x0F ∧ (zeroFrame 0x0F 0 4).header = 0x0F ∧
    footerOk .strict (zeroFrame 0x0F 0 4).footer = false ∧ footerOk .lowNibble04 (zeroFrame 0x0F 0 0x40).footer = false := by
  decide

/-- EncodePlacesEveryChannelBit (its last payload bit), EncodeEqualsTheBitLoop, EncodingTruncatesToElevenBits,
EncodeFrameBuildsAValidFrame, and each law of CodecRoundTripLaws, at the largest values. -/
theorem witness_channel_arrays :
    (List.replicate 16 (2047 : U16)).length = 16 ∧ (∀ v ∈ List.replicate 16 (2047 : U16), v.toNat ≤ 2047) ∧
    (0x0F : Byte).toNat ≤ 15 ∧ (List.replicate 16 (65535 : U16)).length = 16 ∧ 21 < 22 ∧ 7 < 8 ∧ fy.payload.length = 22 := by
  refine ⟨by decide, fun v hv => ?_, by decide, by decide, by decide, by decide, by decide⟩
  rw [List.eq_of_mem_replicate hv]
  decide

/-- CodecRoundTripLaws, the payload is determined: two frames of one payload that are not one frame. -/
theorem witness_same_channels :
    decodeChannels fy = decodeChannels { fy with header := 0x00, footer := 0xFF } ∧ fy ≠ { fy with header := 0x00, footer := 0xFF } :=
  ⟨by simp only [decodeChannels], by decide⟩

/-- ChannelsDoNotInterfere, first law: two payloads that agree on channel 15 only. -/
theorem witness_one_channel_in_common :
    (∀ b, 11 * 15 ≤ b → b ≤ 11 * 15 + 10 →
      ((zeroFrame 0 0 0).payload.getD (b / 8) 0).getLsbD (b % 8) =
        ((List.replicate 20 (0xFF : Byte) ++ [0x1F, 0x00]).getD (b / 8) 0).getLsbD (b % 8)) ∧
    (zeroFrame 0 0 0).payload ≠ List.replicate 20 (0xFF : Byte) ++ [0x1F, 0x00] := by
  refine ⟨fun b h1 h2 => ?_, by decide⟩
  interval_cases b <;> decide

/-- ChannelsDoNotInterfere, second law: the bits beside channel 1, on both sides. -/
theorem witness_neighbouring_bits : (10 < 176 ∧ 10 < 11 * 1) ∧ (22 < 176 ∧ 11 * 1 + 10 < 22) := by decide

/-- ChannelsDoNotInterfere, third law: the last channel alone, and the last two. -/
theorem witness_isolated_channels :
    (∃ F : Frame, F.payload = encodePayload (((List.replicate 16 (0 : U16)).set 15 2047).set 15 2047)) ∧
    ∃ F : Frame, F.payload = encodePayload (((List.replicate 16 (0 : U16)).set 14 2047).set (14 + 1) 2047) :=
  ⟨⟨{ fy with payload := _ }, rfl⟩, ⟨{ fy with payload := _ }, rfl⟩⟩

/-! ### Witnesses: the synchronizer -/

/-- PushIsAllOrNothing: a block that fills the ring to C - 1 bytes, and one byte more. -/
theorem witness_push_boundary : (filled Config.hardware 45 frame0Bytes).Wf ∧
    (filled Config.hardware 45 frame0Bytes).avail + (List.replicate 24 (0 : Byte)).length ≤ 50 - 1 ∧
    (filled Config.hardware 45 frame0Bytes).avail + (List.replicate 25 (0 : Byte)).length > 50 - 1 := by
  have h : (filled Config.hardware 45 frame0Bytes).avail = 25 :=
    filled_avail frame0Bytes (by decide) (by decide) (by decide)
  rw [h]
  exact ⟨filled_wf _ (by decide) (by decide), by decide, by decide⟩

/-- The largest offset a frame can start at when C = 50: 24 other bytes before it. -/
def lastOffset : List Byte := List.replicate 24 0x55 ++ fyBytes

theorem lastOffset_first (r : FooterRule) : FirstAccepted r lastOffset 24 := by
  unfold FirstAccepted Accepted Candidate
  cases r <;> decide

/-- NextHasItsClosedForm, every case: empty; a frame at offset 0 and at offset 24; a rejected candidate with exactly 25
bytes; no candidate; 1 and 24 bytes. (Also ParseAndNextGiveTheSamePacket, and the clauses of NextConsumesUnlessShort and
PushAndNextAlwaysMakeProgress on both sides of 25 bytes.) -/
theorem witness_next_empty : (filled Config.hardware 7 []).Wf ∧ (filled Config.hardware 7 []).avail = 0 :=
  ⟨filled_wf _ (by decide) (by decide), filled_avail _ (by decide) (by decide) (by decide)⟩

theorem witness_next_frame : (filled Config.hardware 40 lastOffset).Wf ∧
    FirstAccepted .strict (filled Config.hardware 40 lastOffset).window 24 ∧
    FirstAccepted .strict (filled Config.hardware 40 fyBytes).window 0 := by
  rw [filled_window lastOffset (by decide) (by decide) (by decide), filled_window fyBytes (by decide) (by decide) (by decide)]
  refine ⟨filled_wf _ (by decide) (by decide), lastOffset_first _, ?_⟩
  unfold FirstAccepted Accepted Candidate
  decide

theorem none_accepted {r : FooterRule} {W : List Byte} (hl : W.length = 25)
    (h : ¬ (W.getD 0 0 = headerSentinel ∧ footerOk r (W.getD 24 0) = true)) (j : Nat) : ¬ Accepted r W j := by
  rintro ⟨⟨h1, h2⟩, h3⟩
  obtain rfl : j = 0 := by omega
  exact h ⟨h2, h3⟩

theorem witness_next_rejected : (filled Config.hardware 0 (List.replicate 25 0x0F)).Wf ∧
    (filled Config.hardware 0 (List.replicate 25 0x0F)).avail = 25 ∧
    (∀ j, ¬ Accepted .strict (filled Config.hardware 0 (List.replicate 25 0x0F)).window j) ∧
    ∃ j, Candidate (filled Config.hardware 0 (List.replicate 25 0x0F)).window j := by
  rw [filled_window _ (by decide) (by decide) (by decide)]
  exact ⟨filled_wf _ (by decide) (by decide), filled_avail _ (by decide) (by decide) (by decide),
    none_accepted (by decide) (by decide), 0, by unfold Candidate; decide⟩

theorem witness_next_no_candidate : (filled Config.hardware 0 (List.replicate 25 0x55)).Wf ∧
    (filled Config.hardware 0 (List.replicate 25 0x55)).avail = 25 ∧
    (∀ j, ¬ Accepted .strict (filled Config.hardware 0 (List.replicate 25 0x55)).window j) ∧
    ∀ j, ¬ Candidate (filled Config.hardware 0 (List.replicate 25 0x55)).window j := by
  rw [filled_window _ (by decide) (by decide) (by decide)]
  refine ⟨filled_wf _ (by decide) (by decide), filled_avail _ (by decide) (by decide) (by decide),
    none_accepted (by decide) (by decide), ?_⟩
  rintro j ⟨h1, h2⟩
  obtain rfl : j = 0 := by simp at h1; omega
  exact absurd h2 (by decide)

theorem witness_next_short : (filled Config.hardware 0 [0x0F]).avail = 1 ∧
    (filled Config.hardware 30 (frame0Bytes.take 24)).avail = 24 ∧ (filled Config.hardware 30 (frame0Bytes.take 24)).Wf ∧
    (∀ j, ¬ Accepted .strict (filled Config.hardware 30 (frame0Bytes.take 24)).window j) := by
  rw [filled_window (frame0Bytes.take 24) (by decide) (by decide) (by decide)]
  refine ⟨filled_avail _ (by decide) (by decide) (by decide), filled_avail _ (by decide) (by decide) (by decide),
    filled_wf _ (by decide) (by decide), ?_⟩
  rintro j ⟨⟨h1, -⟩, -⟩
  simp [frame0Bytes] at h1

/-- ResyncFindsTheFrame: no leading bytes, the longest lead C = 50 allows, and a lead that holds a false frame (V-NEXT-6). -/
theorem witness_resync :
    validate .strict fy = .ok ∧ fy.payload.length = 22 ∧
    (filled Config.hardware 40 fyBytes).window = [] ++ fy.bytes ∧
    (filled Config.hardware 40 lastOffset).window = List.replicate 24 0x55 ++ fy.bytes ∧ 24 + 25 ≤ 50 - 1 :=
  ⟨by decide, by decide, filled_window fyBytes (by decide) (by decide) (by decide),
    filled_window lastOffset (by decide) (by decide) (by decide), by decide⟩

theorem witness_resync_blocked :
    (filled Config.hardware 0 ([0x0F, 0xAA] ++ frame0Bytes)).window = [0x0F, 0xAA] ++ (zeroFrame 0x0F 0 0).bytes ∧
    ([0x0F, 0xAA] ++ frame0Bytes).getD 0 0 = 0x0F ∧ footerOk .strict (([0x0F, 0xAA] ++ frame0Bytes).getD 24 0) = true ∧
    FirstAccepted .strict ([0x0F, 0xAA] ++ frame0Bytes) 0 :=
  ⟨filled_window ([0x0F, 0xAA] ++ frame0Bytes) (by decide) (by decide) (by decide), by decide, by decide,
    by unfold FirstAccepted Accepted Candidate; decide⟩

/-- OverflowSafetyAndConsecutiveFrames, first part: a buffered frame at offset 0 and a block of 25 bytes; one at offset 24
of a full ring and a block of one byte. -/
theorem witness_overflow_safety : (filled Config.hardware 40 fyBytes).Wf ∧
    FirstAccepted .strict (filled Config.hardware 40 fyBytes).window 0 ∧
    (filled Config.hardware 40 fyBytes).avail + frame0Bytes.length > 50 - 1 ∧
    FirstAccepted .strict (filled Config.hardware 40 lastOffset).window 24 ∧
    (filled Config.hardware 40 lastOffset).avail + ([0x00] : List Byte).length > 50 - 1 := by
  rw [filled_avail fyBytes (by decide) (by decide) (by decide), filled_avail lastOffset (by decide) (by decide) (by decide)]
  exact ⟨filled_wf _ (by decide) (by decide), witness_next_frame.2.2, by decide, witness_next_frame.2.1, by decide⟩

/-- Its second part: at C = 50, 24 bytes of the second frame fit beside the first (P2); at C = 51, all 25; and none. -/
theorem witness_consecutive_frames :
    (filled Config.hardware 28 (fyBytes ++ fxBytes.take 24)).window = fy.bytes ++ fx.bytes.take 24 ∧
    (filled { capacity := 51, footerRule := .strict } 0 (fyBytes ++ fxBytes)).window = fy.bytes ++ fx.bytes.take 25 ∧
    (filled Config.hardware 0 fyBytes).window = fy.bytes ++ fx.bytes.take 0 ∧
    (filled Config.hardware 28 (fyBytes ++ fxBytes.take 24)).Wf ∧ validate .strict fx = .ok ∧ fx.payload.length = 22 :=
  ⟨filled_window (fyBytes ++ fxBytes.take 24) (by decide) (by decide) (by decide),
    filled_window (fyBytes ++ fxBytes) (by decide) (by decide) (by decide),
    filled_window fyBytes (by decide) (by decide) (by decide), filled_wf _ (by decide) (by decide), by decide, by decide⟩

/-- PushAndNextAlwaysMakeProgress: 25 bytes, 24 bytes with the longest block, and C = 50. -/
theorem witness_progress : (filled Config.hardware 0 frame0Bytes).avail = 25 ∧
    (filled Config.hardware 0 (frame0Bytes.take 24)).avail = 24 ∧ frame0Bytes.length ≤ 50 - 25 ∧
    (filled Config.hardware 0 frame0Bytes).cfg.capacity = 50 :=
  ⟨filled_avail _ (by decide) (by decide) (by decide), filled_avail _ (by decide) (by decide) (by decide), by decide, rfl⟩

/-! ### Witnesses: what commands can touch and learn -/

/-- StatelessCommandsIgnoreTheRing: two states with one footer rule and different rings and cursors. -/
theorem witness_stateless : (Instr.parse fy).opcode ≠ .push ∧ (Instr.parse fy).opcode ≠ .next ∧
    (Instr.parse fy).opcode ≠ .status ∧ State.reset.cfg.footerRule = running.cfg.footerRule ∧ State.reset.rd ≠ running.rd :=
  ⟨by decide, by decide, by decide, rfl, by decide⟩

/-- StaleCellsAreNeverObservable: one live window, at two places in the ring, over different stale cells. -/
theorem witness_same_view :
    (filled Config.hardware 0 fyBytes).SameView (filled Config.hardware 40 fyBytes) ∧
    (filled Config.hardware 0 fyBytes).rd ≠ (filled Config.hardware 40 fyBytes).rd ∧
    (filled Config.hardware 0 fyBytes).Wf ∧ (filled Config.hardware 40 fyBytes).Wf := by
  refine ⟨⟨rfl, ?_, rfl, rfl⟩, by decide, filled_wf _ (by decide) (by decide), filled_wf _ (by decide) (by decide)⟩
  rw [filled_window _ (by decide) (by decide) (by decide), filled_window _ (by decide) (by decide) (by decide)]

/-- InstancesAreIndependent: the second of two instances. -/
theorem witness_instances : (Instances.create [running] lowNibble)[1]? = some (State.resetWith lowNibble) := rfl

end Sys2Proof.Tests
end

section
/-! PROOFS. The state family (10_state.md): what a step does to the read cursor, the ring and the live window, and the
obligations that follow from it. -/

namespace Sys2Proof.Machine

/-! ### One step, by what the host has to issue -/

theorem step_of_program_nil {s : State} (h : s.program = []) : step s = .next s := by
  simp [step, h]

theorem step_of_decode_ok {s : State} {c : Command} {rest : List Command} {i : Instr} (hp : s.program = c :: rest)
    (hd : decode c = .ok i) : step s = exec i (s.issue rest) := by
  simp [step, hp, hd]

theorem step_of_decode_error {s : State} {c : Command} {rest : List Command} {e : DecodeError}
    (hp : s.program = c :: rest) (hd : decode c = .error e) : step s = .next ((s.issue rest).rejectCommand e) := by
  simp [step, hp, hd]

/-- A command that is executed touches nothing still to be issued and adds one response, in every state. -/
theorem exec_adds_one_response (i : Instr) (s : State) :
    ∃ (t : State) (r : Response), exec i s = .next t ∧ t.program = s.program ∧ t.responses = s.responses ++ [r] := by
  rcases exec_cases i s with ⟨-, -, st, res, h⟩ | ⟨block, -, ⟨-, h⟩ | ⟨-, h⟩⟩ | ⟨-, ⟨-, h⟩ | ⟨-, h⟩⟩
  · exact ⟨_, _, h, rfl, rfl⟩
  · exact ⟨_, _, h, rfl, rfl⟩
  · exact ⟨_, ⟨.ok, []⟩, h, by simp, by simp⟩
  · exact ⟨_, _, h, rfl, rfl⟩
  · obtain ⟨-, -, -, hprog, r, hresp, -⟩ := searchFrame_frame (s.avail + 1) false s
    exact ⟨_, r, h, hprog, hresp⟩

/-- A step takes the next transaction, whatever its bytes, and adds one response (R41). -/
theorem step_adds_one_response {s : State} {c : Command} {rest : List Command} (hp : s.program = c :: rest) :
    ∃ (t : State) (r : Response), step s = .next t ∧ t.program = rest ∧ t.responses = s.responses ++ [r] := by
  cases hd : decode c with
  | ok i =>
    rw [step_of_decode_ok hp hd]
    exact exec_adds_one_response i (s.issue rest)
  | error e =>
    rw [step_of_decode_error hp hd]
    cases e <;> exact ⟨_, _, rfl, rfl, rfl⟩

theorem step_answers (s : State) : ∃ t, step s = .next t := by
  cases hp : s.program with
  | nil => exact ⟨s, step_of_program_nil hp⟩
  | cons c rest =>
    obtain ⟨t, -, h, -⟩ := step_adds_one_response hp
    exact ⟨t, h⟩

/-! ### NEXT as a function of the live window -/

theorem FirstAccepted.unique {r : FooterRule} {W : List Byte} {j k : Nat} (hj : FirstAccepted r W j)
    (hk : FirstAccepted r W k) : j = k := by
  rcases Nat.lt_trichotomy j k with hlt | heq | hgt
  · exact absurd hj.1 (hk.2 j hlt)
  · exact heq
  · exact absurd hk.1 (hj.2 k hgt)

theorem FirstAccepted.add_le_length {r : FooterRule} {W : List Byte} {j : Nat} (h : FirstAccepted r W j) :
    j + 25 ≤ W.length := h.1.1.1

/-- What NEXT takes from the front of the window and what it answers depend on the footer rule and the live window only
(R34, R39): not on where the cursors stand, and not on any other cell. -/
theorem exec_next_of_window (r : FooterRule) (W : List Byte) :
    ∃ (n : Nat) (st : Status) (res : List Byte), n ≤ W.length ∧
      ∀ s : State, s.Wf → s.cfg.footerRule = r → s.window = W →
        exec .next s = .next ((s.advanceRd n).respond st res) := by
  by_cases hW : W.length = 0
  · refine ⟨0, .emptyBuffer, [], Nat.zero_le _, fun s hs _ hwin => ?_⟩
    rw [State.advanceRd_zero hs, exec_next_empty (by rw [← State.length_window, hwin, hW])]
  have hsearch : ∀ s : State, s.window = W → exec .next s = .next (searchFrame (s.avail + 1) false s) :=
    fun s hwin => exec_next_search (by rwa [← State.length_window, hwin])
  by_cases hfirst : ∃ j, FirstAccepted r W j
  · obtain ⟨j, hj⟩ := hfirst
    refine ⟨j + 25, .ok, packetBytes (framePacket (frameAt W j)), hj.add_le_length, fun s hs hr hwin => ?_⟩
    rw [hsearch s hwin]
    rcases searchFrame_spec hs (fuel := s.avail + 1) (by omega) false with ⟨k, hk, heq⟩ | ⟨hnone, -⟩
    · rw [hr, hwin] at hk
      rw [heq, hwin, hk.unique hj]
    · rw [hr, hwin] at hnone
      exact absurd hj.1 (hnone j)
  · classical
    refine ⟨W.length - 24, if ∃ j, Candidate W j then .invalidFrame else .incompleteData, [], Nat.sub_le _ _,
      fun s hs hr hwin => ?_⟩
    rw [hsearch s hwin]
    rcases searchFrame_spec hs (fuel := s.avail + 1) (by omega) false with ⟨k, hk, -⟩ | ⟨-, rej, hrej, heq⟩
    · rw [hr, hwin] at hk
      exact absurd ⟨k, hk⟩ hfirst
    · have hrej' : rej = true ↔ ∃ j, Candidate W j := by simpa [hwin] using hrej
      simp only [heq, hrej', ← hwin, State.length_window]

/-- NEXT in a well-formed state advances the read cursor over buffered bytes and responds. -/
theorem exec_next_advances {s : State} (h : s.Wf) :
    ∃ (n : Nat) (st : Status) (res : List Byte), n ≤ s.avail ∧
      exec .next s = .next ((s.advanceRd n).respond st res) := by
  obtain ⟨n, st, res, hn, hexec⟩ := exec_next_of_window s.cfg.footerRule s.window
  exact ⟨n, st, res, by simpa using hn, hexec s h rfl rfl⟩

/-! ### Everything a step can do to a well-formed state -/

/-- A command in a well-formed state responds, after a PUSH that fits has written its block and a NEXT has advanced the
read cursor over buffered bytes. -/
theorem exec_moves {s : State} (h : s.Wf) (i : Instr) :
    ∃ (st : Status) (res : List Byte),
      exec i s = .next (s.respond st res) ∨
      (∃ block, i = .push block ∧ s.avail + block.length < s.cfg.capacity ∧
        exec i s = .next ((s.pushBytes block).respond st res)) ∨
      (∃ n, i = .next ∧ n ≤ s.avail ∧ exec i s = .next ((s.advanceRd n).respond st res)) := by
  rcases exec_cases i s with ⟨-, -, st, res, heq⟩ | ⟨block, hi, ⟨-, heq⟩ | ⟨hfits, heq⟩⟩ | ⟨rfl, -⟩
  · exact ⟨st, res, .inl heq⟩
  · exact ⟨_, _, .inl heq⟩
  · have := h.pos
    exact ⟨_, _, .inr (.inl ⟨block, hi, by omega, heq⟩)⟩
  · obtain ⟨n, st, res, hn, heq⟩ := exec_next_advances h
    exact ⟨st, res, .inr (.inr ⟨n, rfl, hn, heq⟩)⟩

/-- The inversion of a step from a well-formed state: it idles, or it takes one transaction off the channel and responds,
a PUSH that fits having written its block and a NEXT having advanced the read cursor over buffered bytes. -/
theorem step_moves {s t : State} (h : s.Wf) (hstep : step s = .next t) :
    (s.program = [] ∧ t = s) ∨
    ∃ (c : Command) (rest : List Command) (st : Status) (res : List Byte), s.program = c :: rest ∧
      (t = (s.issue rest).respond st res ∨
       (∃ block, decode c = .ok (.push block) ∧ s.avail + block.length < s.cfg.capacity ∧
          t = ((s.issue rest).pushBytes block).respond st res) ∨
       (∃ n, decode c = .ok .next ∧ n ≤ s.avail ∧ t = ((s.issue rest).advanceRd n).respond st res)) := by
  rcases step_cases s with ⟨hp, heq⟩ | ⟨c, rest, hp, ⟨i, hd, heq⟩ | ⟨-, -, st, -, heq⟩⟩ <;> rw [heq] at hstep
  · cases hstep
    exact .inl ⟨hp, rfl⟩
  · obtain ⟨st, res, hresp | ⟨block, rfl, hroom, hpush⟩ | ⟨n, rfl, hn, hnext⟩⟩ := exec_moves (h.issue rest) i
    · rw [hresp] at hstep
      cases hstep
      exact .inr ⟨c, rest, st, res, hp, .inl rfl⟩
    · rw [hpush] at hstep
      cases hstep
      exact .inr ⟨c, rest, st, res, hp, .inr (.inl ⟨block, hd, hroom, rfl⟩)⟩
    · rw [hnext] at hstep
      cases hstep
      exact .inr ⟨c, rest, st, res, hp, .inr (.inr ⟨n, hd, hn, rfl⟩)⟩
  · cases hstep
    exact .inr ⟨c, rest, st, [], hp, .inl rfl⟩

theorem step_preserves_wf {s t : State} (h : s.Wf) (hstep : step s = .next t) : t.Wf := by
  rcases step_moves h hstep with ⟨-, rfl⟩ | ⟨c, rest, st, res, -, rfl | ⟨block, -, -, rfl⟩ | ⟨n, -, -, rfl⟩⟩
  · exact h
  · exact (h.issue rest).respond st res
  · exact ((h.issue rest).pushBytes block).respond st res
  · exact ((h.issue rest).advanceRd n).respond st res

theorem step_preserves_liveWritten {s t : State} (h : s.Wf) (hl : s.LiveWritten) (hstep : step s = .next t) :
    t.LiveWritten := by
  rcases step_moves h hstep with ⟨-, rfl⟩ | ⟨c, rest, st, res, -, rfl | ⟨block, -, hroom, rfl⟩ | ⟨n, -, hn, rfl⟩⟩
  · exact hl
  · exact (hl.issue rest).respond st res
  · exact ((hl.issue rest).pushBytes (h.issue rest) block hroom).respond st res
  · exact ((hl.issue rest).advanceRd (h.issue rest) hn).respond st res

/-- The invariant of a run (R192) is kept by every step. -/
theorem step_preserves_inv {s t : State} (h : s.Inv) (hstep : step s = .next t) : t.Inv :=
  ⟨step_preserves_wf h.wf hstep, step_preserves_liveWritten h.wf h.live hstep⟩

/-! ### Commands that answer from their operand and the footer rule -/

/-- `run` only responds, with a status and a result that are the same in all states with footer rule `r`. -/
def AnswersByRule (r : FooterRule) (run : State → State) : Prop :=
  ∃ (st : Status) (res : List Byte), ∀ s : State, s.cfg.footerRule = r → run s = s.respond st res

theorem AnswersByRule.respond (r : FooterRule) (st : Status) (res : List Byte) :
    AnswersByRule r fun s => s.respond st res := ⟨st, res, fun _ _ => rfl⟩

theorem AnswersByRule.ifWellFormed {r : FooterRule} {run : State → State} (h : AnswersByRule r run) (i : Instr) :
    AnswersByRule r fun s => s.ifWellFormed i (run s) := by
  by_cases hi : i.WellFormed
  · simpa only [State.ifWellFormed_of_wf _ _ hi] using h
  · simpa only [State.ifWellFormed_of_not_wf _ _ hi] using AnswersByRule.respond r .malformedCommand []

theorem AnswersByRule.afterValidation {r : FooterRule} {run : State → State} (h : AnswersByRule r run) (F : Frame) :
    AnswersByRule r fun s => s.afterValidation (validate s.cfg.footerRule F) (run s) := by
  obtain ⟨st, res, hrun⟩ := h
  cases hv : validate r F with
  | ok => exact ⟨st, res, fun s hs => by simp only [hs, hv, State.afterValidation, hrun s hs]⟩
  | invalidHeader b => exact ⟨.invalidHeader, [b], fun s hs => by simp only [hs, hv, State.afterValidation, State.raise_eq]⟩
  | invalidFooter b => exact ⟨.invalidFooter, [b], fun s hs => by simp only [hs, hv, State.afterValidation, State.raise_eq]⟩

/-- A stateless command answers from its operand and the footer rule (R34, R59). -/
theorem exec_stateless {i : Instr} (hpush : i.opcode ≠ .push) (hnext : i.opcode ≠ .next) (hstatus : i.opcode ≠ .status)
    (r : FooterRule) : ∃ (st : Status) (res : List Byte), ∀ s : State, s.cfg.footerRule = r →
      exec i s = .next (s.respond st res) := by
  have hrun : ∃ run : State → State, AnswersByRule r run ∧ ∀ s, exec i s = .next (run s) := by
    cases i with
    | validate F => exact ⟨_, ((AnswersByRule.respond r _ _).afterValidation F).ifWellFormed _, fun _ => rfl⟩
    | decode F => exact ⟨_, (AnswersByRule.respond r _ _).ifWellFormed _, fun _ => rfl⟩
    | encode ch => exact ⟨_, (AnswersByRule.respond r _ _).ifWellFormed _, fun _ => rfl⟩
    | decodeFlags b => exact ⟨_, AnswersByRule.respond r _ _, fun _ => rfl⟩
    | encodeFrame ch f => exact ⟨_, (AnswersByRule.respond r _ _).ifWellFormed _, fun _ => rfl⟩
    | parse F => exact ⟨_, ((AnswersByRule.respond r _ _).afterValidation F).ifWellFormed _, fun _ => rfl⟩
    | push block => exact absurd rfl hpush
    | next => exact absurd rfl hnext
    | status => exact absurd rfl hstatus
  obtain ⟨run, ⟨st, res, hanswer⟩, hexec⟩ := hrun
  exact ⟨st, res, fun s hs => by rw [hexec, hanswer s hs]⟩

/-! ### States of the same view under a step -/

theorem State.SameView.issue {s t : State} (h : s.SameView t) (rest : List Command) :
    (s.issue rest).SameView (t.issue rest) :=
  ⟨h.cfg, h.window, rfl, h.responses⟩

theorem State.SameView.pushBytes {s t : State} (hs : s.Wf) (ht : t.Wf) (h : s.SameView t) (bs : List Byte)
    (hroom : s.avail + bs.length < s.cfg.capacity) : (s.pushBytes bs).SameView (t.pushBytes bs) where
  cfg := by simp [h.cfg]
  window := by
    rw [State.window_pushBytes hs bs hroom, State.window_pushBytes ht bs (by rwa [← h.avail, ← h.cfg]), h.window]
  program := by simp [h.program]
  responses := by simp [h.responses]

theorem State.SameView.observe {s t : State} (h : s.SameView t) : s.observe = t.observe := by
  simp only [State.observe, h.responses, h.avail]

/-- A command that is executed cannot tell states of one view apart (R39, R45). -/
theorem exec_sameView {s t : State} (hs : s.Wf) (ht : t.Wf) (h : s.SameView t) (i : Instr) :
    ∃ s' t' : State, exec i s = .next s' ∧ exec i t = .next t' ∧ s'.SameView t' := by
  have hrule : t.cfg.footerRule = s.cfg.footerRule := by rw [h.cfg]
  by_cases hi : i.opcode ≠ .push ∧ i.opcode ≠ .next ∧ i.opcode ≠ .status
  · obtain ⟨hpush, hnext, hstatus⟩ := hi
    obtain ⟨st, res, hexec⟩ := exec_stateless hpush hnext hstatus s.cfg.footerRule
    exact ⟨_, _, hexec s rfl, hexec t hrule, h.respond st res⟩
  cases i with
  | push block =>
    rcases Nat.lt_or_ge (s.cfg.capacity - 1) (s.avail + block.length) with hover | hfits
    · exact ⟨_, _, exec_push_over hover, exec_push_over (by rwa [← h.avail, ← h.cfg]), h.respond _ _⟩
    · have := hs.pos
      exact ⟨_, _, exec_push_fits hfits, exec_push_fits (by rwa [← h.avail, ← h.cfg]),
        (h.pushBytes hs ht block (by omega)).respond _ _⟩
  | next =>
    obtain ⟨n, st, res, hn, hexec⟩ := exec_next_of_window s.cfg.footerRule s.window
    exact ⟨_, _, hexec s hs rfl rfl, hexec t ht hrule h.window.symm,
      (h.advanceRd hs ht (by simpa using hn)).respond st res⟩
  | status =>
    refine ⟨_, _, rfl, rfl, ?_⟩
    rw [← h.avail, ← h.cfg]
    exact h.respond _ _
  | _ => exact absurd ⟨by simp [Instr.opcode], by simp [Instr.opcode], by simp [Instr.opcode]⟩ hi

/-- A step cannot tell states of one view apart (R39, R200). -/
theorem step_sameView {s t : State} (hs : s.Wf) (ht : t.Wf) (h : s.SameView t) :
    ∃ s' t' : State, step s = .next s' ∧ step t = .next t' ∧ s'.SameView t' := by
  cases hp : s.program with
  | nil => exact ⟨s, t, step_of_program_nil hp, step_of_program_nil (h.program ▸ hp), h⟩
  | cons c rest =>
    have hp' : t.program = c :: rest := h.program ▸ hp
    cases hd : decode c with
    | ok i =>
      rw [step_of_decode_ok hp hd, step_of_decode_ok hp' hd]
      exact exec_sameView (hs.issue rest) (ht.issue rest) (h.issue rest) i
    | error e =>
      refine ⟨_, _, step_of_decode_error hp hd, step_of_decode_error hp' hd, ?_⟩
      cases e <;> exact (h.issue rest).respond _ _

/-! ### The obligations of the family -/

/-- Settles O4: every move a step is made of keeps the state well formed and the live cells written. -/
theorem stepKeepsLiveCellsWritten : Obligations.StepKeepsLiveCellsWritten :=
  fun _ _ => step_preserves_inv

/-- Settles O52: a command sees the ring through the live window only. -/
theorem staleCellsAreNeverObservable : Obligations.StaleCellsAreNeverObservable := by
  intro s t hs ht h
  obtain ⟨s', t', hs', ht', h'⟩ := step_sameView hs ht h
  exact ⟨s', t', hs', ht', h', h'.observe⟩

/-- Settles O3, by the inversion of a step from a well-formed state. -/
theorem stepKeepsStateWellFormed : Obligations.StepKeepsStateWellFormed :=
  fun _ _ => step_preserves_wf

/-- Settles O5: the remainder is not negative, as C is positive, and the window is read cell by cell. -/
theorem availIsTheCursorDistance : Obligations.AvailIsTheCursorDistance := by
  intro s hs
  have hpos := hs.pos
  refine ⟨?_, Nat.le_sub_one_of_lt hs.avail_lt, State.length_window s, fun k hk => ?_⟩
  · exact Int.toNat_of_nonneg (Int.emod_nonneg _ (by omega))
  · have hk' : k < s.window.length := by rwa [State.length_window]
    rw [List.getElem?_eq_getElem hk', State.getElem_window]
    rfl

/-- Settles O10: a decoded command and a rejected transaction each add one response. -/
theorem everyCommandGetsOneResponse : Obligations.EveryCommandGetsOneResponse :=
  fun _ _ _ => step_adds_one_response

/-- Settles O50: a stateless command answers from its operand and the footer rule. -/
theorem statelessCommandsIgnoreTheRing : Obligations.StatelessCommandsIgnoreTheRing := by
  intro i hpush hnext hstatus s t hrule
  obtain ⟨st, res, hexec⟩ := exec_stateless hpush hnext hstatus s.cfg.footerRule
  exact ⟨st, res, hexec s rfl, hexec t hrule.symm⟩

/-- Settles O53: the step of the block at position `k` sets that position of the list and no other. -/
theorem instancesAreIndependent : Obligations.InstancesAreIndependent := by
  intro all k s hk
  obtain ⟨t, ht⟩ := step_answers s
  obtain ⟨hlt, -⟩ := List.getElem?_eq_some_iff.1 hk
  refine ⟨all.set k t, t, by simp [Instances.step, hk, ht], ht, List.getElem?_set_self hlt, List.length_set, ?_⟩
  exact fun j hj => List.getElem?_set_ne hj.symm

/-- Settles O6: `C ≤ 2 ^ ceil(log2 C)`. -/
theorem cursorsFitTheirRegisters : Obligations.CursorsFitTheirRegisters := by
  have hwidth (c : Nat) : c ≤ 2 ^ cursorBits c := Nat.le_pow_clog Nat.one_lt_two c
  exact ⟨fun s hs => ⟨hs.rd_lt.trans_le (hwidth _), hs.wr_lt.trans_le (hwidth _)⟩, by norm_num [cursorBits]⟩

/-- Settles O8: a transaction that decodes is executed with itself taken off the channel. -/
theorem stepRunsTheDecodedCommand : Obligations.StepRunsTheDecodedCommand :=
  fun _ _ _ _ => step_of_decode_ok

/-- Settles O9: with an empty channel the model idles (log 2). -/
theorem idleStepChangesNothing : Obligations.IdleStepChangesNothing :=
  fun _ => step_of_program_nil

end Sys2Proof.Machine
end

section
/-! PROOFS. The memory family (20_memory.md): which commands write the ring and the cursors, and the ring as a queue. -/

namespace Sys2Proof.Machine

/-! ### What a command and a step write, in every state -/

/-- A command writes the ring and the write cursor only if it is a PUSH (R130). -/
theorem exec_keeps_ring_or_push {i : Instr} {s t : State} (h : exec i s = .next t) :
    (t.ring = s.ring ∧ t.wr = s.wr) ∨ ∃ block, i = .push block := by
  rcases exec_cases i s with ⟨-, -, st, res, heq⟩ | ⟨block, hi, -⟩ | ⟨-, ⟨-, heq⟩ | ⟨-, heq⟩⟩
  · cases heq.symm.trans h
    exact .inl ⟨rfl, rfl⟩
  · exact .inr ⟨block, hi⟩
  · cases heq.symm.trans h
    exact .inl ⟨rfl, rfl⟩
  · cases heq.symm.trans h
    obtain ⟨-, hring, hwr, -⟩ := searchFrame_frame (s.avail + 1) false s
    exact .inl ⟨hring, hwr⟩

/-- A command writes the read cursor only if it is NEXT (R133). -/
theorem exec_keeps_rd_or_next {i : Instr} {s t : State} (h : exec i s = .next t) : t.rd = s.rd ∨ i = .next := by
  rcases exec_cases i s with ⟨-, -, st, res, heq⟩ | ⟨block, -, ⟨-, heq⟩ | ⟨-, heq⟩⟩ | ⟨hi, -⟩
  · cases heq.symm.trans h
    exact .inl rfl
  · cases heq.symm.trans h
    exact .inl rfl
  · cases heq.symm.trans h
    exact .inl (by simp)
  · exact .inr hi

/-- A step executes the decoded command, or leaves the ring and the cursors alone. -/
theorem step_executes_or_keeps {s t : State} (h : step s = .next t) :
    (∃ c rest i, s.program = c :: rest ∧ decode c = .ok i ∧ exec i (s.issue rest) = .next t) ∨
      (t.ring = s.ring ∧ t.wr = s.wr ∧ t.rd = s.rd) := by
  rcases step_cases s with ⟨-, heq⟩ | ⟨c, rest, hp, ⟨i, hd, heq⟩ | ⟨-, -, st, -, heq⟩⟩
  · cases heq.symm.trans h
    exact .inr ⟨rfl, rfl, rfl⟩
  · exact .inl ⟨c, rest, i, hp, hd, heq.symm.trans h⟩
  · cases heq.symm.trans h
    exact .inr ⟨rfl, rfl, rfl⟩

/-! ### The obligations of the family -/

/-- Settles O45, by the inversion of a step: a PUSH that fits appends its block and takes nothing, a NEXT appends nothing
and takes what the read cursor moves over, every other step leaves the window as it is. -/
theorem ringIsFirstInFirstOut : Obligations.RingIsFirstInFirstOut := by
  intro s t hs hstep
  have hkept (hwin : t.window = s.window) : t.window = (s.window ++ []).drop 0 := by simp [hwin]
  rcases step_moves hs hstep with
    ⟨-, rfl⟩ | ⟨c, rest, st, res, hp, rfl | ⟨block, hd, hroom, rfl⟩ | ⟨n, hd, hn, rfl⟩⟩
  · exact ⟨[], 0, hkept rfl, absurd rfl, absurd rfl⟩
  · exact ⟨[], 0, hkept rfl, absurd rfl, absurd rfl⟩
  · exact ⟨block, 0, State.window_pushBytes (hs.issue rest) block hroom, fun _ => ⟨c, rest, hp, hd⟩, absurd rfl⟩
  · have hwin : ((s.issue rest).advanceRd n).window = s.window.drop n := State.window_advanceRd (hs.issue rest) hn
    exact ⟨[], n, by rw [List.append_nil]; exact hwin, absurd rfl, fun _ => ⟨c, rest, hp, hd⟩⟩

/-- Settles O51: the step that changed the field executed a command, and that command is the one that may write it. -/
theorem onlyPushAndNextWriteTheirState : Obligations.OnlyPushAndNextWriteTheirState := by
  intro s t hstep
  rcases step_executes_or_keeps hstep with ⟨c, rest, i, hp, hd, hexec⟩ | ⟨hring, hwr, hrd⟩
  · refine ⟨fun hne => ?_, fun hne => ?_⟩
    · rcases exec_keeps_ring_or_push hexec with ⟨hring, hwr⟩ | ⟨block, rfl⟩
      · exact hne.elim (absurd hring) (absurd hwr)
      · exact ⟨c, rest, block, hp, hd⟩
    · rcases exec_keeps_rd_or_next hexec with hrd | rfl
      · exact absurd hrd hne
      · exact ⟨c, rest, hp, hd⟩
  · exact ⟨fun hne => hne.elim (absurd hring) (absurd hwr), absurd hrd⟩

end Sys2Proof.Machine
end

section
/-! PROOFS. The encoding family (30_encoding.md): the decoder and the encoder as inverses, transactions that are no
command, the response channel, listings, and the payload's bit layout. -/

namespace Sys2Proof

/-! ### Operand lengths and the opcode map -/

/-- The length check of R82, by the length a format requires. -/
theorem Format.accepts_iff (f : Format) (n : Nat) : f.accepts n = true ↔ ∀ m, f.length = some m → n = m := by
  cases f <;> simp [Format.accepts, Format.length]

theorem Opcode.ofByte_eq_none {b : Byte} (h : ∀ k : Opcode, k.code ≠ b) : Opcode.ofByte b = none := by
  cases hk : Opcode.ofByte b with
  | none => rfl
  | some k => exact absurd (Opcode.code_of_ofByte hk) (h k)

theorem decode_of_illegal {c : Command} (h : Opcode.ofByte c.op = none) : decode c = .error (.illegal c.op) := by
  simp [decode, h]

theorem decode_of_wrong_length {k : Opcode} {n : Nat} {opnd : List Byte} (hn : k.format.length = some n)
    (hlen : opnd.length ≠ n) : decode { op := k.code, opnd := opnd } = .error (.malformed k opnd.length) := by
  have hacc : ¬ k.format.accepts opnd.length = true := fun h => hlen ((Format.accepts_iff _ _).1 h n hn)
  simp [decode, hacc]

/-! ### Operand assembly against operand bytes -/

/-- The encoding of a well-formed command has its row's opcode and a length its row's format accepts, for every row. -/
theorem encode_shape {i : Instr} (h : i.WellFormed) :
    (encode i).op = i.opcode.code ∧ i.opcode.format.accepts (encode i).opnd.length = true := by
  cases i with
  | validate F => exact Laws.EncodeShape.validate F h
  | decode F => exact Laws.EncodeShape.decode F h
  | encode ch => exact Laws.EncodeShape.encode ch h
  | decodeFlags b => exact Laws.EncodeShape.decodeFlags b h
  | encodeFrame ch f => exact Laws.EncodeShape.encodeFrame ch f h
  | parse F => exact Laws.EncodeShape.parse F h
  | push block => exact Laws.EncodeShape.push block h
  | next => exact Laws.EncodeShape.next h
  | status => exact Laws.EncodeShape.status h

/-- The operand of ENCODE_FRAME is 32 channel bytes, then the flags byte (R76, FMT_CF). -/
theorem channelsAndFlags_split {ch : List U16} (f : Byte) (h : ch.length = 16) :
    (channelBytes ch ++ [f]).take 32 = channelBytes ch ∧ (channelBytes ch ++ [f]).getD 32 0 = f := by
  have hlen : (channelBytes ch).length = 32 := by simp [h]
  refine ⟨List.take_left' hlen, ?_⟩
  rw [List.getD_append_right _ _ _ _ hlen.le, hlen]
  rfl

/-- Assembling a well-formed command's own operand bytes gives the command back. -/
theorem assemble_operandBytes {i : Instr} (h : i.WellFormed) : i.opcode.assemble i.operandBytes = i := by
  cases i with
  | validate F => exact congrArg Instr.validate (Frame.ofWindow_bytes ((Instr.wellFormed_validate F).1 h))
  | decode F => exact congrArg Instr.decode (Frame.ofWindow_bytes ((Instr.wellFormed_decode F).1 h))
  | encode ch => exact congrArg Instr.encode (channelsOfBytes_channelBytes ch)
  | decodeFlags b => rfl
  | encodeFrame ch f =>
    obtain ⟨htake, hget⟩ := channelsAndFlags_split f ((Instr.wellFormed_encodeFrame ch f).1 h)
    simp only [Instr.opcode, Opcode.assemble, Instr.operandBytes, htake, hget, channelsOfBytes_channelBytes]
  | parse F => exact congrArg Instr.parse (Frame.ofWindow_bytes ((Instr.wellFormed_parse F).1 h))
  | push block => rfl
  | next => rfl
  | status => rfl

/-- A command assembled from an operand of the right length is well formed, and that operand is its operand bytes. -/
theorem wellFormed_assemble {k : Opcode} {opnd : List Byte} (h : k.format.accepts opnd.length = true) :
    (k.assemble opnd).WellFormed ∧ (k.assemble opnd).operandBytes = opnd := by
  have hlen (n : Nat) (hn : k.format.length = some n) : opnd.length = n := (Format.accepts_iff _ _).1 h n hn
  cases k with
  | validate => exact ⟨(Instr.wellFormed_validate _).2 (Frame.ofWindow_wf _), Frame.bytes_ofWindow (hlen 25 rfl)⟩
  | decode => exact ⟨(Instr.wellFormed_decode _).2 (Frame.ofWindow_wf _), Frame.bytes_ofWindow (hlen 25 rfl)⟩
  | encode =>
    obtain ⟨hch, hbytes⟩ := channelBytes_channelsOfBytes 16 (hlen 32 rfl)
    exact ⟨(Instr.wellFormed_encode _).2 hch, hbytes⟩
  | decodeFlags =>
    obtain ⟨b, rfl⟩ := List.length_eq_one_iff.1 (hlen 1 rfl)
    exact ⟨rfl, rfl⟩
  | encodeFrame =>
    have h33 := hlen 33 rfl
    obtain ⟨hch, hbytes⟩ := channelBytes_channelsOfBytes 16 (bs := opnd.take 32) (by simp [h33])
    refine ⟨(Instr.wellFormed_encodeFrame _ _).2 hch, ?_⟩
    calc channelBytes (channelsOfBytes (opnd.take 32)) ++ [opnd.getD 32 0]
        = opnd.take 32 ++ [opnd[32]] := by rw [hbytes, List.getD_eq_getElem _ _ (by omega)]
      _ = opnd.take 33 := List.take_append_getElem (by omega)
      _ = opnd := List.take_of_length_le h33.le
  | parse => exact ⟨(Instr.wellFormed_parse _).2 (Frame.ofWindow_wf _), Frame.bytes_ofWindow (hlen 25 rfl)⟩
  | push => exact ⟨rfl, rfl⟩
  | next => exact ⟨rfl, (List.length_eq_zero_iff.1 (hlen 0 rfl)).symm⟩
  | status => exact ⟨rfl, (List.length_eq_zero_iff.1 (hlen 0 rfl)).symm⟩

/-! ### The round trips -/

theorem decode_encode {i : Instr} (h : i.WellFormed) : decode (encode i) = .ok i := by
  obtain ⟨hop, hacc⟩ := encode_shape h
  rw [decode_of_accepts (by rw [hop, Opcode.ofByte_code]) hacc]
  exact congrArg Except.ok (assemble_operandBytes h)

theorem encode_of_decode {c : Command} {i : Instr} (h : decode c = .ok i) : i.WellFormed ∧ encode i = c := by
  rcases decode_cases c with ⟨-, herr⟩ | ⟨k, hk, ⟨hacc, hok⟩ | ⟨-, herr⟩⟩
  · cases herr.symm.trans h
  · cases hok.symm.trans h
    obtain ⟨hwf, hbytes⟩ := wellFormed_assemble hacc
    refine ⟨hwf, ?_⟩
    rw [encode, Opcode.opcode_assemble, hbytes, Opcode.code_of_ofByte hk]
  · cases herr.symm.trans h

/-- The opcode byte and the operand length of its format (R84). -/
theorem length_bytes_encode {i : Instr} {n : Nat} (h : i.WellFormed) (hn : i.opcode.format.length = some n) :
    (encode i).bytes.length = n + 1 := by
  obtain ⟨-, hacc⟩ := encode_shape h
  exact congrArg (· + 1) ((Format.accepts_iff _ _).1 hacc n hn)

/-- Settles O19: the opcode byte gives the row back, and its operand bytes assemble to the command. -/
theorem decodeInvertsEncode : Obligations.DecodeInvertsEncode :=
  fun _ => decode_encode

/-- Settles O20: what decodes is assembled from an operand of the right length. -/
theorem encodeInvertsDecode : Obligations.EncodeInvertsDecode :=
  fun _ _ => encode_of_decode

/-- Settles O21: PUSH has the length of its block, every other command that of its format. -/
theorem commandLengthsFollowTheirFormats : Obligations.CommandLengthsFollowTheirFormats := by
  intro i h
  cases i with
  | push block => exact Nat.add_comm _ _
  | _ => exact length_bytes_encode h rfl

/-- Settles O22, by evaluating the decoder on the six transactions. -/
theorem writtenOutWordsDecode : Obligations.WrittenOutWordsDecode := by
  unfold Obligations.WrittenOutWordsDecode
  decide

end Sys2Proof

namespace Sys2Proof.Machine

/-! ### Transactions that are no command -/

theorem step_of_illegal_opcode {s : State} {c : Command} {rest : List Command} (hp : s.program = c :: rest)
    (h : Opcode.ofByte c.op = none) : step s = .next ((s.issue rest).respond .illegalCommand []) :=
  step_of_decode_error hp (decode_of_illegal h)

theorem step_of_wrong_length {s : State} {k : Opcode} {n : Nat} {opnd : List Byte} {rest : List Command}
    (hp : s.program = { op := k.code, opnd := opnd } :: rest) (hn : k.format.length = some n) (hlen : opnd.length ≠ n) :
    step s = .next ((s.issue rest).respond .malformedCommand []) :=
  step_of_decode_error hp (decode_of_wrong_length hn hlen)

/-- A term that is not well formed answers what its transaction would (log 7). -/
theorem exec_of_not_wellFormed {i : Instr} (s : State) (h : ¬ i.WellFormed) :
    exec i s = .next (s.respond .malformedCommand []) := by
  cases i with
  | validate F => exact congrArg _ (State.ifWellFormed_of_not_wf s _ h)
  | decode F => exact congrArg _ (State.ifWellFormed_of_not_wf s _ h)
  | encode ch => exact congrArg _ (State.ifWellFormed_of_not_wf s _ h)
  | encodeFrame ch f => exact congrArg _ (State.ifWellFormed_of_not_wf s _ h)
  | parse F => exact congrArg _ (State.ifWellFormed_of_not_wf s _ h)
  | _ => exact absurd rfl h

set_option maxRecDepth 4000 in
/-- Settles O12: no row of the map has its opcode byte in one of the three ranges; the 247 bytes are counted. -/
theorem illegalOpcodesAreAnswered : Obligations.IllegalOpcodesAreAnswered := by
  refine ⟨fun s op opnd rest hp hrange => ?_, by decide, rfl⟩
  refine step_of_illegal_opcode hp (Opcode.ofByte_eq_none fun k hk => ?_)
  obtain rfl : k.code = op := hk
  cases k <;> simp [Opcode.code] at hrange

/-- Settles O13: every row but PUSH requires one length. -/
theorem wrongLengthsAreAnswered : Obligations.WrongLengthsAreAnswered := by
  refine ⟨fun s op opnd rest hp hwrong => ?_, fun _ => rfl, rfl⟩
  rcases hwrong with
    ⟨rfl | rfl | rfl, hlen⟩ | ⟨rfl, hlen⟩ | ⟨rfl, hlen⟩ | ⟨rfl, hlen⟩ | ⟨rfl | rfl, hlen⟩
  · exact step_of_wrong_length (k := .validate) hp rfl hlen
  · exact step_of_wrong_length (k := .decode) hp rfl hlen
  · exact step_of_wrong_length (k := .parse) hp rfl hlen
  · exact step_of_wrong_length (k := .encode) hp rfl hlen
  · exact step_of_wrong_length (k := .decodeFlags) hp rfl hlen
  · exact step_of_wrong_length (k := .encodeFrame) hp rfl hlen
  · exact step_of_wrong_length (k := .next) hp rfl hlen
  · exact step_of_wrong_length (k := .status) hp rfl hlen

/-- Settles O14: such a term fails the length check that comes before the command. -/
theorem illFormedTermsAnswerMalformed : Obligations.IllFormedTermsAnswerMalformed :=
  fun _ => exec_of_not_wellFormed

/-! ### The response channel -/

/-- `t` has one response more than `s`, with a status of the block's own table (R83). -/
def State.AnswersProduced (s t : State) : Prop :=
  ∃ r : Response, t.responses = s.responses ++ [r] ∧ r.status ∈ Status.produced

theorem State.AnswersProduced.respond (s : State) {st : Status} (res : List Byte) (h : st ∈ Status.produced) :
    s.AnswersProduced (s.respond st res) := ⟨⟨st, res⟩, rfl, h⟩

theorem State.AnswersProduced.ifWellFormed {s run : State} (h : s.AnswersProduced run) (i : Instr) :
    s.AnswersProduced (s.ifWellFormed i run) := by
  by_cases hi : i.WellFormed
  · rwa [State.ifWellFormed_of_wf _ _ hi]
  · rw [State.ifWellFormed_of_not_wf _ _ hi]
    exact .respond s [] (by decide)

theorem State.AnswersProduced.afterValidation {s k : State} (h : s.AnswersProduced k) (v : Validation) :
    s.AnswersProduced (s.afterValidation v k) := by
  cases v with
  | ok => exact h
  | invalidHeader b => exact .respond s [b] (by decide)
  | invalidFooter b => exact .respond s [b] (by decide)

theorem exec_answersProduced (i : Instr) (s : State) : ∃ t, exec i s = .next t ∧ s.AnswersProduced t := by
  have hok (res : List Byte) : s.AnswersProduced (s.respond .ok res) := .respond s res (by decide)
  cases i with
  | validate F => exact ⟨_, rfl, ((hok _).afterValidation _).ifWellFormed _⟩
  | decode F => exact ⟨_, rfl, (hok _).ifWellFormed _⟩
  | encode ch => exact ⟨_, rfl, (hok _).ifWellFormed _⟩
  | decodeFlags b => exact ⟨_, rfl, hok _⟩
  | encodeFrame ch f => exact ⟨_, rfl, (hok _).ifWellFormed _⟩
  | parse F => exact ⟨_, rfl, ((hok _).afterValidation _).ifWellFormed _⟩
  | push block =>
    rcases Nat.lt_or_ge (s.cfg.capacity - 1) (s.avail + block.length) with hover | hfits
    · exact ⟨_, exec_push_over hover, .respond s [] (by decide)⟩
    · exact ⟨_, exec_push_fits hfits, ⟨.ok, []⟩, by simp, by decide⟩
  | next =>
    by_cases hempty : s.avail = 0
    · exact ⟨_, exec_next_empty hempty, .respond s [] (by decide)⟩
    · obtain ⟨-, -, -, -, r, hresp, hst⟩ := searchFrame_frame (s.avail + 1) false s
      refine ⟨_, exec_next_search hempty, r, hresp, ?_⟩
      rcases hst with ⟨hst, -⟩ | ⟨hst | hst, -⟩ <;> rw [hst] <;> decide
  | status => exact ⟨_, rfl, hok _⟩

theorem step_answersProduced {s t : State} {c : Command} {rest : List Command} (hp : s.program = c :: rest)
    (h : step s = .next t) : s.AnswersProduced t := by
  cases hd : decode c with
  | ok i =>
    obtain ⟨u, hu, hans⟩ := exec_answersProduced i (s.issue rest)
    cases ((step_of_decode_ok hp hd).trans hu).symm.trans h
    exact hans
  | error e =>
    cases (step_of_decode_error hp hd).symm.trans h
    cases e with
    | illegal b => exact .respond (s.issue rest) [] (by decide)
    | malformed k n => exact .respond (s.issue rest) [] (by decide)

/-- The status codes the block produces are 0x00 to 0x06, 0x08 and 0x09, one per status (R83). -/
theorem Status.code_of_produced {st : Status} (h : st ∈ Status.produced) :
    st.code ≠ 0x07 ∧ st.code.toNat < 0x0A ∧ Status.ofByte st.code = some st := by
  revert st
  decide

theorem Status.ofByte_eq_none {b : Byte} (h : b = 0x07 ∨ 0x0A ≤ b.toNat) : Status.ofByte b = none := by
  refine List.find?_eq_none.2 fun st hst hcode => ?_
  obtain rfl : st.code = b := eq_of_beq hcode
  obtain ⟨hne, hlt, -⟩ := Status.code_of_produced hst
  exact h.elim hne (Nat.not_le.2 hlt)

/-- Settles O17: a step answers with a status of the block's table, and the response decoder knows those and no other. -/
theorem deliveredStatusesAreInTheTable : Obligations.DeliveredStatusesAreInTheTable := by
  refine ⟨fun s t c rest hp hstep => ?_, fun b res hb => by simp only [decodeResponse, Status.ofByte_eq_none hb]⟩
  obtain ⟨r, hresp, hst⟩ := step_answersProduced hp hstep
  obtain ⟨hne, hlt, hof⟩ := Status.code_of_produced hst
  exact ⟨r, hresp, hne, hlt, by simp only [Response.bytes, decodeResponse, hof]⟩

/-! ### Execution does not look at what is still to be issued -/

theorem State.issue_of_program {s : State} {rest : List Command} (h : s.program = rest) : s.issue rest = s := by
  subst h
  rfl

theorem State.pushBytes_issue (s : State) (rest : List Command) (bs : List Byte) :
    (s.issue rest).pushBytes bs = (s.pushBytes bs).issue rest := by
  induction bs generalizing s with
  | nil => rfl
  | cons b bs ih => exact ih (s.pushByte b)

theorem seekHeader_issue (fuel : Nat) (s : State) (rest : List Command) :
    seekHeader fuel (s.issue rest) = (seekHeader fuel s).issue rest := by
  induction fuel generalizing s with
  | zero => rfl
  | succ fuel ih =>
    by_cases hseek : 25 ≤ s.avail ∧ s.windowByte 0 ≠ headerSentinel
    · have hseek' : 25 ≤ (s.issue rest).avail ∧ (s.issue rest).windowByte 0 ≠ headerSentinel := hseek
      rw [seekHeader, if_pos hseek', seekHeader, if_pos hseek]
      exact ih (s.advanceRd 1)
    · have hseek' : ¬ (25 ≤ (s.issue rest).avail ∧ (s.issue rest).windowByte 0 ≠ headerSentinel) := hseek
      rw [seekHeader, if_neg hseek', seekHeader, if_neg hseek]

theorem searchFrame_issue (fuel : Nat) (rejected : Bool) (s : State) (rest : List Command) :
    searchFrame fuel rejected (s.issue rest) = (searchFrame fuel rejected s).issue rest := by
  induction fuel generalizing rejected s with
  | zero => rfl
  | succ fuel ih =>
    have hcand (t : State) : (t.issue rest).candidate = t.candidate := rfl
    simp only [searchFrame, State.issue_avail, seekHeader_issue, State.issue_cfg, hcand]
    split
    · rfl
    · split
      · rfl
      · exact ih true ((seekHeader s.avail s).advanceRd 1)

/-- A command executes alike whatever the host has still to issue (R41). -/
theorem exec_issue {i : Instr} {s t : State} (h : exec i s = .next t) (rest : List Command) :
    exec i (s.issue rest) = .next (t.issue rest) := by
  by_cases hi : i.opcode ≠ .push ∧ i.opcode ≠ .next ∧ i.opcode ≠ .status
  · obtain ⟨hpush, hnext, hstatus⟩ := hi
    obtain ⟨st, res, hexec⟩ := exec_stateless hpush hnext hstatus s.cfg.footerRule
    cases (hexec s rfl).symm.trans h
    exact hexec (s.issue rest) rfl
  cases i with
  | push block =>
    rcases Nat.lt_or_ge (s.cfg.capacity - 1) (s.avail + block.length) with hover | hfits
    · cases (exec_push_over hover).symm.trans h
      exact exec_push_over (s := s.issue rest) hover
    · cases (exec_push_fits hfits).symm.trans h
      rw [exec_push_fits (s := s.issue rest) hfits, State.pushBytes_issue]
      rfl
  | next =>
    by_cases hempty : s.avail = 0
    · cases (exec_next_empty hempty).symm.trans h
      exact exec_next_empty (s := s.issue rest) hempty
    · cases (exec_next_search hempty).symm.trans h
      rw [exec_next_search (s := s.issue rest) hempty, searchFrame_issue]
      rfl
  | status =>
    cases h
    rfl
  | _ => exact absurd ⟨by simp [Instr.opcode], by simp [Instr.opcode], by simp [Instr.opcode]⟩ hi

/-- A run of assembled lines, as many steps as lines, ends where applying the lines one by one ends. -/
theorem run_assemble {lines : List Instr} (hwf : ∀ i ∈ lines, i.WellFormed) {s : State} (hs : s.program = []) :
    ∃ t : State, applyAll lines s = .next t ∧
      Host.Core.run Sys2Proof.core lines.length (s.issue (assemble lines)) = .next t := by
  induction lines generalizing s with
  | nil => exact ⟨s, rfl, congrArg _ (State.issue_of_program hs)⟩
  | cons i is ih =>
    obtain ⟨u, -, hexec, hprog, -⟩ := exec_adds_one_response i s
    obtain ⟨t, happly, hrun⟩ := ih (fun j hj => hwf j (List.mem_cons_of_mem i hj)) (hprog.trans hs)
    have hstep : step (s.issue (assemble (i :: is))) = .next (u.issue (assemble is)) :=
      (step_of_decode_ok rfl (decode_encode (hwf i List.mem_cons_self))).trans (exec_issue hexec (assemble is))
    refine ⟨t, ?_, (run_succ is.length hstep).trans hrun⟩
    simp only [applyAll, hexec, happly]

/-- Settles O23, by induction on the lines from any state with nothing to issue, of which reset is one. -/
theorem listingRunsLineByLine : Obligations.ListingRunsLineByLine :=
  fun c _ hwf => run_assemble hwf (s := State.resetWith c) rfl

/-! ### The payload's bit layout -/

/-- Bit `j` of channel `i` is payload bit `11 i + j` (R71). -/
theorem testBit_channelField (p : List Byte) (i j : Nat) : (fieldAt 11 (payloadInt p) i).testBit j =
    (decide (j < 11) && (p.getD ((11 * i + j) / 8) 0).getLsbD ((11 * i + j) % 8)) := by
  rw [testBit_fieldAt, testBit_payloadInt]

/-- A byte has no bits from 8 on. -/
theorem testBit_byte_of_le (b : Byte) {n : Nat} (h : 8 ≤ n) : b.toNat.testBit n = false :=
  Nat.testBit_lt_two_pow (b.isLt.trans_le (Nat.pow_le_pow_right (by omega) h))

/-- The 11 bits from bit `o` of byte `k` on lie in the bytes `k`, `k + 1` and `k + 2` (R72). -/
theorem channelField_eq_bytes (p : List Byte) {i k o : Nat} (hi : 11 * i = 8 * k + o) (ho : o < 8) :
    fieldAt 11 (payloadInt p) i =
      (((p.getD k 0).toNat >>> o) ||| ((p.getD (k + 1) 0).toNat <<< (8 - o)) |||
        ((p.getD (k + 2) 0).toNat <<< (16 - o))) &&& 0x7FF := by
  apply Nat.eq_of_testBit_eq
  intro j
  rw [testBit_channelField, hi]
  simp only [Nat.testBit_and, Nat.testBit_or, Nat.testBit_shiftRight, Nat.testBit_shiftLeft, testBit_channelMask]
  by_cases h11 : j < 11
  · have hbyte (m : Nat) (hm : 8 * m ≤ o + j) (hm' : o + j < 8 * m + 8) :
        (p.getD ((8 * k + o + j) / 8) 0).getLsbD ((8 * k + o + j) % 8) =
          (p.getD (k + m) 0).toNat.testBit (o + j - 8 * m) := by
      rw [show (8 * k + o + j) / 8 = k + m by omega, show (8 * k + o + j) % 8 = o + j - 8 * m by omega]
      rfl
    rcases Nat.lt_or_ge (o + j) 8 with h8 | h8
    · rw [hbyte 0 (by omega) (by omega)]
      simp [h11, show ¬ 8 - o ≤ j by omega, show ¬ 16 - o ≤ j by omega]
    · rw [testBit_byte_of_le _ h8]
      rcases Nat.lt_or_ge (o + j) 16 with h16 | h16
      · rw [hbyte 1 (by omega) (by omega)]
        simp [h11, show 8 - o ≤ j by omega, show ¬ 16 - o ≤ j by omega, show j - (8 - o) = o + j - 8 by omega]
      · rw [hbyte 2 (by omega) (by omega), testBit_byte_of_le _ (show 8 ≤ j - (8 - o) by omega)]
        simp [h11, show 16 - o ≤ j by omega, show j - (16 - o) = o + j - 16 by omega]
  · simp [h11]

/-- The mask drops what is shifted left by 11 or more. -/
theorem or_shiftLeft_and_mask (x y : Nat) {n : Nat} (h : 11 ≤ n) : (x ||| y <<< n) &&& 0x7FF = x &&& 0x7FF := by
  apply Nat.eq_of_testBit_eq
  intro j
  simp only [Nat.testBit_and, Nat.testBit_or, Nat.testBit_shiftLeft, testBit_channelMask]
  by_cases h11 : j < 11
  · simp [show ¬ n ≤ j by omega]
  · simp [h11]

/-- The byte expressions of R72 are the 11-bit fields of the payload; a field that starts at bit 5 or below lies in two
bytes, as the mask drops the third. -/
theorem channelByteForm_eq (p : List Byte) : channelByteForm p = (List.range 16).map (fieldAt 11 (payloadInt p)) := by
  have hfield (i : Nat) := channelField_eq_bytes p (Nat.div_add_mod (11 * i) 8).symm (Nat.mod_lt _ (by omega))
  have hrange : List.range 16 = [0, 1, 2, 3, 4, 5, 6, 7, 8, 9, 10, 11, 12, 13, 14, 15] := rfl
  simp [channelByteForm, hrange, hfield, or_shiftLeft_and_mask]

theorem channelBytes_decodeChannels (F : Frame) : channelBytes (decodeChannels F) =
    (channelByteForm F.payload).flatMap fun v => [BitVec.ofNat 8 v, BitVec.ofNat 8 (v / 256)] := by
  rw [channelByteForm_eq, channelBytes, decodeChannels]
  simp only [List.flatMap_map, u16Bytes_ofNat]

theorem exec_decode {F : Frame} (s : State) (h : F.payload.length = 22) :
    exec (.decode F) s = .next (s.respond .ok (channelBytes (decodeChannels F))) :=
  congrArg _ (State.ifWellFormed_of_wf s _ ((Instr.wellFormed_decode F).2 h))

/-- Settles O27: DECODE answers the 11-bit fields of the payload, which are the byte expressions. -/
theorem decodeFollowsTheByteExpressions : Obligations.DecodeFollowsTheByteExpressions := by
  intro F s h
  rw [exec_decode s h, channelBytes_decodeChannels]
  rfl

/-- Settles O28: a channel value is its 11-bit field, which has no bit from 11 on. -/
theorem channelBitsComeFromTheirPayloadBits : Obligations.ChannelBitsComeFromTheirPayloadBits := by
  refine fun F _ => ⟨length_decodeChannels F, fun i j hi hj => ?_⟩
  have hget : (decodeChannels F).getD i 0 = BitVec.ofNat 16 (fieldAt 11 (payloadInt F.payload) i) := by
    rw [List.getD_eq_getElem _ _ (by simpa using hi)]
    simp [decodeChannels]
  rw [hget, BitVec.getLsbD_ofNat, testBit_channelField, decide_eq_true hj, Bool.true_and]

/-! ### The accepted footers -/

theorem footerOk_strict_iff (b : Byte) : footerOk .strict b = true ↔ b = 0x00 := beq_iff_eq

theorem footerOk_lowNibble04_iff (b : Byte) :
    footerOk .lowNibble04 b = true ↔ b = 0x00 ∨ b &&& 0x0F = 0x04 := by
  simp only [footerOk, Bool.or_eq_true, beq_iff_eq]

set_option maxRecDepth 4000 in
/-- Settles O26, each rule by its definition; the 17 bytes are counted. -/
theorem acceptedFootersFollowTheRule : Obligations.AcceptedFootersFollowTheRule :=
  ⟨fun b => ⟨footerOk_strict_iff b, footerOk_lowNibble04_iff b⟩, by decide, rfl⟩

end Sys2Proof.Machine
end

section
/-! PROOFS. The validator family (40_validator.md): what VALIDATE answers, and the sentinels it rejects. -/

namespace Sys2Proof.Machine

/-! ### VALIDATE -/

theorem exec_validate {F : Frame} (s : State) (h : F.payload.length = 22) : exec (.validate F) s =
    .next (s.afterValidation (validate s.cfg.footerRule F) (s.respond .ok [])) :=
  congrArg _ (State.ifWellFormed_of_wf s _ ((Instr.wellFormed_validate F).2 h))

/-- Settles O24: VALIDATE answers with the outcome of `validate`, whose three cases are R100's, the header first. -/
theorem validateChecksTheSentinels : Obligations.ValidateChecksTheSentinels := by
  intro F s h
  rw [exec_validate s h, State.afterValidation_validate]
  rfl

/-! ### The rejected sentinels -/

/-- A wrong header is reported whatever the footer is: it is checked first (R101). -/
theorem validate_of_header_ne (r : FooterRule) (F : Frame) (h : F.header ≠ headerSentinel) :
    validate r F = .invalidHeader F.header := if_pos h

theorem validate_of_footer_rejected (r : FooterRule) (F : Frame) (hhead : F.header = headerSentinel)
    (hfoot : footerOk r F.footer = false) : validate r F = .invalidFooter F.footer := by
  rw [validate, if_neg (not_not_intro hhead), if_neg (Bool.eq_false_iff.1 hfoot)]

set_option maxRecDepth 4000 in
/-- Settles O25, by the two rejecting branches of `validate`; the rejected bytes are counted, footers under each rule
and then headers. -/
theorem sentinelRejectionIsTotal : Obligations.SentinelRejectionIsTotal :=
  ⟨validate_of_header_ne, validate_of_footer_rejected, by decide, by decide, by decide⟩

end Sys2Proof.Machine
end

section
/-! PROOFS. The codec family (41_codec.md): the payload as a 176-bit integer, the round-trip laws, the bit map of ENCODE
and the loop of R112, truncation, flags, the encoded frame, and the independence of the channels. -/

namespace Sys2Proof.Machine

/-! ### The commands of the codec on operands of the right length -/

theorem exec_encode {ch : List U16} (s : State) (h : ch.length = 16) :
    exec (.encode ch) s = .next (s.respond .ok (encodePayload ch)) :=
  congrArg _ (State.ifWellFormed_of_wf s _ ((Instr.wellFormed_encode ch).2 h))

theorem exec_encodeFrame {ch : List U16} (f : Byte) (s : State) (h : ch.length = 16) :
    exec (.encodeFrame ch f) s = .next (s.respond .ok (encodeFrame ch f).bytes) :=
  congrArg _ (State.ifWellFormed_of_wf s _ ((Instr.wellFormed_encodeFrame ch f).2 h))

theorem exec_parse {F : Frame} (s : State) (h : F.payload.length = 22) : exec (.parse F) s =
    .next (s.afterValidation (validate s.cfg.footerRule F) (s.respond .ok (packetBytes (framePacket F)))) :=
  congrArg _ (State.ifWellFormed_of_wf s _ ((Instr.wellFormed_parse F).2 h))

/-! ### Truncation to 11 bits -/

theorem truncateChannel_eq_mod (v : U16) : truncateChannel v = v.toNat % 2048 :=
  Nat.and_two_pow_sub_one_eq_mod v.toNat 11

/-- The truncated value, carried in a u16, is the masked one. -/
theorem ofNat_truncateChannel (v : U16) : BitVec.ofNat 16 (truncateChannel v) = v &&& 0x7FF := by
  rw [truncateChannel, BitVec.ofNat_and, BitVec.ofNat_toNat, BitVec.setWidth_eq]
  rfl

theorem and_channelMask_of_le {v : U16} (h : v.toNat ≤ 2047) : v &&& 0x7FF = v := by
  rw [← ofNat_truncateChannel, truncateChannel_eq_mod, Nat.mod_eq_of_lt (by omega), BitVec.ofNat_toNat,
    BitVec.setWidth_eq]

theorem map_channelMask_of_le {ch : List U16} (h : ∀ v ∈ ch, v.toNat ≤ 2047) : (ch.map fun v => v &&& 0x7FF) = ch :=
  (List.map_congr_left fun v hv => and_channelMask_of_le (h v hv)).trans (List.map_id' ch)

/-- Truncating twice is truncating once. -/
theorem truncateChannel_and_channelMask (v : U16) : truncateChannel (v &&& 0x7FF) = truncateChannel v := by
  rw [truncateChannel, truncateChannel, BitVec.toNat_and, Nat.and_assoc]
  rfl

/-- ENCODE reads no more of a value than its low 11 bits. -/
theorem encodePayload_map_channelMask (ch : List U16) :
    encodePayload (ch.map fun v => v &&& 0x7FF) = encodePayload ch := by
  simp only [encodePayload, List.map_map, Function.comp_def, truncateChannel_and_channelMask]

/-! ### Payloads and their integers -/

/-- The integer that ENCODE cuts into bytes (R112): the channels, 11 bits each. -/
def channelInt (ch : List U16) : Nat := packFields 11 (ch.map truncateChannel)

theorem encodePayload_eq (ch : List U16) :
    encodePayload ch = (List.range 22).map fun k => BitVec.ofNat 8 (fieldAt 8 (channelInt ch) k) := rfl

theorem lt_of_mem_map_truncateChannel (ch : List U16) : ∀ n ∈ ch.map truncateChannel, n < 2 ^ 11 :=
  List.forall_mem_map.2 fun v _ => truncateChannel_lt v

/-- Bit `b` of the packed integer is bit `b % 11` of channel `b / 11`. -/
theorem testBit_channelInt (ch : List U16) (b : Nat) :
    (channelInt ch).testBit b = (ch.getD (b / 11) 0).getLsbD (b % 11) := by
  rw [channelInt, testBit_packFields (by omega) (lt_of_mem_map_truncateChannel ch),
    show (0 : Nat) = truncateChannel 0 from rfl, List.getD_map, testBit_truncateChannel,
    decide_eq_true (Nat.mod_lt b (by omega)), Bool.true_and]

theorem channelInt_lt {ch : List U16} (h : ch.length = 16) : channelInt ch < 2 ^ 176 := by
  have := packFields_lt (lt_of_mem_map_truncateChannel ch)
  rwa [List.length_map, h] at this

/-- A packed channel is taken out truncated. -/
theorem fieldAt_channelInt {ch : List U16} {i : Nat} (hi : i < ch.length) :
    fieldAt 11 (channelInt ch) i = truncateChannel ch[i] := by
  rw [channelInt, fieldAt_packFields (by omega) (lt_of_mem_map_truncateChannel ch) (by simpa using hi), List.getElem_map]

/-- The integer of an integer's 22 bytes is its low 176 bits. -/
theorem payloadInt_map_fieldAt (P : Nat) :
    payloadInt ((List.range 22).map fun k => BitVec.ofNat 8 (fieldAt 8 P k)) = P % 2 ^ 176 := by
  have hbyte (k : Nat) : (BitVec.ofNat 8 (fieldAt 8 P k)).toNat = fieldAt 8 P k :=
    Nat.mod_eq_of_lt (fieldAt_lt 8 P k)
  rw [payloadInt, List.map_map, ← packFields_fieldAt (w := 8) (by omega) P 22]
  exact congrArg (packFields 8) (List.map_congr_left fun k _ => hbyte k)

theorem payloadInt_encodePayload {ch : List U16} (h : ch.length = 16) :
    payloadInt (encodePayload ch) = channelInt ch := by
  rw [encodePayload_eq, payloadInt_map_fieldAt, Nat.mod_eq_of_lt (channelInt_lt h)]

/-- Bit `j` of payload byte `k` is bit `8 k + j` of P. -/
theorem getLsbD_payloadByte (p : List Byte) (k : Nat) {j : Nat} (hj : j < 8) :
    (p.getD k 0).getLsbD j = (payloadInt p).testBit (8 * k + j) := by
  rw [testBit_payloadInt, show (8 * k + j) / 8 = k by omega, show (8 * k + j) % 8 = j by omega]

/-- A payload is determined by its integer. -/
theorem eq_of_payloadInt_eq {p q : List Byte} (hl : p.length = q.length) (h : payloadInt p = payloadInt q) : p = q := by
  refine List.ext_getElem hl fun k hp hq => BitVec.eq_of_getLsbD_eq fun j hj => ?_
  rw [← List.getD_eq_getElem p 0 hp, ← List.getD_eq_getElem q 0 hq, getLsbD_payloadByte p k hj, h,
    getLsbD_payloadByte q k hj]

theorem getElem_decodeChannels (F : Frame) {i : Nat} (hi : i < (decodeChannels F).length) :
    (decodeChannels F)[i] = BitVec.ofNat 16 (fieldAt 11 (payloadInt F.payload) i) := by
  simp only [decodeChannels, List.getElem_map, List.getElem_range]

/-! ### The round-trip laws -/

/-- Decoding an encoded payload gives the truncated values, whatever the other frame bytes are. -/
theorem decodeChannels_of_encodePayload {F : Frame} {ch : List U16} (h : ch.length = 16)
    (hF : F.payload = encodePayload ch) : decodeChannels F = ch.map fun v => v &&& 0x7FF := by
  refine List.ext_getElem (by simp [h]) fun i _ hi => ?_
  rw [getElem_decodeChannels, hF, payloadInt_encodePayload h, fieldAt_channelInt (by simpa using hi),
    ofNat_truncateChannel, List.getElem_map]

/-- Values up to 2047 survive encoding and decoding. -/
theorem decodeChannels_of_encodePayload_of_le {F : Frame} {ch : List U16} (h : ch.length = 16)
    (hle : ∀ v ∈ ch, v.toNat ≤ 2047) (hF : F.payload = encodePayload ch) : decodeChannels F = ch :=
  (decodeChannels_of_encodePayload h hF).trans (map_channelMask_of_le hle)

/-- Truncating a decoded channel changes nothing: it is an 11-bit field. -/
theorem truncateChannel_ofNat_fieldAt (P i : Nat) :
    truncateChannel (BitVec.ofNat 16 (fieldAt 11 P i)) = fieldAt 11 P i := by
  have := fieldAt_lt 11 P i
  rw [truncateChannel_eq_mod, BitVec.toNat_ofNat]
  omega

/-- Packing the decoded channels gives the payload's integer back. -/
theorem channelInt_decodeChannels {F : Frame} (h : F.payload.length = 22) :
    channelInt (decodeChannels F) = payloadInt F.payload := by
  simp only [channelInt, decodeChannels, List.map_map, Function.comp_def, truncateChannel_ofNat_fieldAt]
  exact (packFields_fieldAt (by omega) _ 16).trans (Nat.mod_eq_of_lt (payloadInt_lt h))

theorem encodePayload_decodeChannels {F : Frame} (h : F.payload.length = 22) :
    encodePayload (decodeChannels F) = F.payload :=
  eq_of_payloadInt_eq (by rw [length_encodePayload, h])
    (by rw [payloadInt_encodePayload (length_decodeChannels F), channelInt_decodeChannels h])

/-- An encoded frame is accepted under both footer rules: it carries both sentinels (R115). -/
theorem validate_encodeFrame (r : FooterRule) (ch : List U16) (f : Byte) : validate r (encodeFrame ch f) = .ok := by
  cases r <;> rfl

theorem and_lowNibble_of_le {f : Byte} (h : f.toNat ≤ 15) : f &&& 0x0F = f := by
  apply BitVec.eq_of_toNat_eq
  rw [BitVec.toNat_and, show (0x0F : Byte).toNat = 2 ^ 4 - 1 from rfl, Nat.and_two_pow_sub_one_eq_mod,
    Nat.mod_eq_of_lt (by omega)]

theorem packetBytes_framePacket_encodeFrame {ch : List U16} {f : Byte} (h : ch.length = 16)
    (hle : ∀ v ∈ ch, v.toNat ≤ 2047) (hf : f.toNat ≤ 15) :
    packetBytes (framePacket (encodeFrame ch f)) = channelBytes ch ++ [f] := by
  have hch : decodeChannels (encodeFrame ch f) = ch := decodeChannels_of_encodePayload_of_le h hle rfl
  have hflags : (encodeFrame ch f).flagByte = f := and_lowNibble_of_le hf
  rw [framePacket, packetBytes, hch, hflags, flagsByte_decodeFlags, and_lowNibble_of_le hf]

theorem exec_parse_encodeFrame {ch : List U16} {f : Byte} (s : State) (h : ch.length = 16)
    (hle : ∀ v ∈ ch, v.toNat ≤ 2047) (hf : f.toNat ≤ 15) :
    exec (.parse (encodeFrame ch f)) s = .next (s.respond .ok (channelBytes ch ++ [f])) := by
  rw [exec_parse s (length_encodePayload ch), validate_encodeFrame, packetBytes_framePacket_encodeFrame h hle hf]
  rfl

/-- Settles O34: decoding after encoding truncates, encoding after decoding is the identity, and the bijection follows. -/
theorem codecRoundTripLaws : Obligations.CodecRoundTripLaws := by
  refine ⟨fun ch _ _ _ h => decodeChannels_of_encodePayload h rfl, fun ch f s h hle hf => exec_parse_encodeFrame s h hle hf,
    fun F h => encodePayload_decodeChannels h, fun F G hF hG h => ?_, fun ch h hle => ?_⟩
  · rw [← encodePayload_decodeChannels hF, h, encodePayload_decodeChannels hG]
  · exact ⟨encodeFrame ch 0, length_encodePayload ch, decodeChannels_of_encodePayload_of_le h hle rfl⟩

/-! ### The bit map of ENCODE -/

/-- Bit `b` of an encoded payload is bit `b % 11` of channel `b / 11`. -/
theorem testBit_payloadInt_encodePayload (ch : List U16) {b : Nat} (hb : b < 176) :
    (payloadInt (encodePayload ch)).testBit b = (ch.getD (b / 11) 0).getLsbD (b % 11) := by
  rw [encodePayload_eq, payloadInt_map_fieldAt, Nat.testBit_mod_two_pow, decide_eq_true hb, Bool.true_and,
    testBit_channelInt]

/-- Settles O29, by the bit map of the packed integer. -/
theorem encodePlacesEveryChannelBit : Obligations.EncodePlacesEveryChannelBit := by
  refine fun ch s h => ⟨encodePayload ch, length_encodePayload ch, exec_encode s h, fun k j hk hj => ?_⟩
  rw [getLsbD_payloadByte _ k hj, testBit_payloadInt_encodePayload ch (by omega)]

/-! ### The bit-by-bit loop of R112 -/

theorem length_setPayloadBit (p : List Byte) (b : Nat) : (setPayloadBit p b).length = p.length := List.length_set

/-- Setting payload bit `b` sets bit `b` of P and no other. -/
theorem testBit_payloadInt_setPayloadBit {p : List Byte} {b : Nat} (hb : b / 8 < p.length) (c : Nat) :
    (payloadInt (setPayloadBit p b)).testBit c = ((payloadInt p).testBit c || decide (c = b)) := by
  have hbyte : b >>> 3 = b / 8 := Nat.shiftRight_eq_div_pow b 3
  have hbit : b &&& 7 = b % 8 := Nat.and_two_pow_sub_one_eq_mod b 3
  rw [testBit_payloadInt, testBit_payloadInt, setPayloadBit, hbyte, hbit]
  by_cases hc : c / 8 = b / 8
  · have hset : (p.set (b / 8) (p.getD (b / 8) 0 ||| (1 : Byte) <<< (b % 8))).getD (b / 8) 0 =
        p.getD (b / 8) 0 ||| (1 : Byte) <<< (b % 8) := by
      simp [hb]
    have hone : ((1 : Byte) <<< (b % 8)).getLsbD (c % 8) = decide (c = b) := by
      rw [show (1 : Byte) <<< (b % 8) = BitVec.twoPow 8 (b % 8) from rfl, BitVec.getLsbD_twoPow,
        decide_eq_true (Nat.mod_lt b (by omega)), Bool.true_and, decide_eq_decide]
      omega
    rw [hc, hset, BitVec.getLsbD_or, hone]
  · have hset (x : Byte) : (p.set (b / 8) x).getD (c / 8) 0 = p.getD (c / 8) 0 := by
      simp [Ne.symm hc]
    rw [hset, decide_eq_false (by rintro rfl; exact hc rfl), Bool.or_false]

/-- What the loop of R112 keeps: a payload that holds the low `m` bits of `P`, and no more. -/
structure HoldsLowBits (P m : Nat) (p : List Byte) : Prop where
  length_eq : p.length = 22
  payloadInt_eq : payloadInt p = P % 2 ^ m

theorem holdsLowBits_zero (P : Nat) : HoldsLowBits P 0 (List.replicate 22 0) :=
  ⟨rfl, by rw [Nat.pow_zero, Nat.mod_one]; decide⟩

/-- One more bit of `P` is kept by the longer remainder. -/
theorem testBit_mod_two_pow_succ (P m c : Nat) :
    (P % 2 ^ (m + 1)).testBit c = ((P % 2 ^ m).testBit c || (P.testBit m && decide (c = m))) := by
  rw [Nat.testBit_mod_two_pow, Nat.testBit_mod_two_pow]
  rcases Nat.lt_trichotomy c m with hc | rfl | hc
  · simp [hc, hc.ne, Nat.lt_succ_of_lt hc]
  · simp
  · simp [hc.ne', Nat.not_lt.2 hc.le, Nat.not_le.2 hc]

/-- One pass of the inner loop adds the next bit. -/
theorem HoldsLowBits.succ {P m : Nat} {p : List Byte} (h : HoldsLowBits P m p) (hm : m < 176) :
    HoldsLowBits P (m + 1) (if P.testBit m then setPayloadBit p m else p) := by
  obtain ⟨hlen, hint⟩ := h
  by_cases hbit : P.testBit m = true
  · rw [if_pos hbit]
    refine ⟨by rw [length_setPayloadBit, hlen], Nat.eq_of_testBit_eq fun c => ?_⟩
    rw [testBit_payloadInt_setPayloadBit (by omega), hint, testBit_mod_two_pow_succ, hbit, Bool.true_and]
  · rw [if_neg hbit]
    refine ⟨hlen, Nat.eq_of_testBit_eq fun c => ?_⟩
    rw [hint, testBit_mod_two_pow_succ, Bool.eq_false_iff.2 hbit, Bool.false_and, Bool.or_false]

/-- The inner loop of R112 over the low `n` bits of `v`, which are the bits of `P` from `m` on. -/
theorem HoldsLowBits.foldl_setPayloadBit {P m n v : Nat} {p : List Byte} (h : HoldsLowBits P m p) (hn : m + n ≤ 176)
    (hv : ∀ j, j < n → v.testBit j = P.testBit (m + j)) :
    HoldsLowBits P (m + n)
      ((List.range n).foldl (fun p j => if v.testBit j then setPayloadBit p (m + j) else p) p) := by
  induction n with
  | zero => exact h
  | succ n ih =>
    have hprev := ih (by omega) fun j hj => hv j (by omega)
    rw [List.range_succ, List.foldl_concat, hv n (by omega)]
    exact hprev.succ (by omega)

/-- Bit `j` of channel `i` is bit `11 i + j` of the packed integer. -/
theorem testBit_truncateChannel_getD (ch : List U16) (i : Nat) {j : Nat} (hj : j < 11) :
    (truncateChannel (ch.getD i 0)).testBit j = (channelInt ch).testBit (11 * i + j) := by
  rw [testBit_channelInt, testBit_truncateChannel, decide_eq_true hj, Bool.true_and,
    show (11 * i + j) / 11 = i by omega, show (11 * i + j) % 11 = j by omega]

/-- One pass of the outer loop of R112: channel `i`, one bit at a time. -/
def setChannelBits (ch : List U16) (p : List Byte) (i : Nat) : List Byte :=
  (List.range 11).foldl
    (fun p j => if (truncateChannel (ch.getD i 0)).testBit j then setPayloadBit p (11 * i + j) else p) p

theorem encodePayloadLoop_eq (ch : List U16) :
    encodePayloadLoop ch = (List.range 16).foldl (setChannelBits ch) (List.replicate 22 0) := rfl

/-- After `n` channels the loop has written the low `11 n` bits of the packed integer. -/
theorem holdsLowBits_foldl_setChannelBits (ch : List U16) {n : Nat} (hn : n ≤ 16) :
    HoldsLowBits (channelInt ch) (11 * n) ((List.range n).foldl (setChannelBits ch) (List.replicate 22 0)) := by
  induction n with
  | zero => exact holdsLowBits_zero _
  | succ n ih =>
    rw [List.range_succ, List.foldl_concat]
    exact (ih (by omega)).foldl_setPayloadBit (n := 11) (by omega) fun j hj => testBit_truncateChannel_getD ch n hj

/-- Settles O30: both forms write the low 176 bits of the packed integer. -/
theorem encodeEqualsTheBitLoop : Obligations.EncodeEqualsTheBitLoop := by
  intro ch _
  have hloop := holdsLowBits_foldl_setChannelBits ch (Nat.le_refl 16)
  rw [encodePayloadLoop_eq]
  refine eq_of_payloadInt_eq (by rw [length_encodePayload, hloop.length_eq]) ?_
  rw [hloop.payloadInt_eq, encodePayload_eq, payloadInt_map_fieldAt]

/-! ### Truncation, flags and the encoded frame -/

/-- The mask is reduction mod 2048 (R113). -/
theorem ofNat_mod_eq_and_channelMask (v : U16) : BitVec.ofNat 16 (v.toNat % 2048) = v &&& 0x7FF := by
  rw [← truncateChannel_eq_mod, ofNat_truncateChannel]

/-- ENCODE_FRAME answers the encoded payload between the header and the low four flag bits (R115). -/
theorem bytes_encodeFrame (ch : List U16) (f : Byte) :
    (encodeFrame ch f).bytes = 0x0F :: (encodePayload ch ++ [f &&& 0x0F, 0x00]) := rfl

/-- Settles O31: the payload of masked values is the payload, and the mask is reduction mod 2048. -/
theorem encodingTruncatesToElevenBits : Obligations.EncodingTruncatesToElevenBits := by
  intro ch s h
  simp only [ofNat_mod_eq_and_channelMask]
  have hmap : (ch.map fun v => v &&& 0x7FF).length = 16 := by rw [List.length_map, h]
  rw [exec_encode s h, exec_encode s hmap, encodePayload_map_channelMask]
  refine ⟨rfl, rfl, fun f => ?_⟩
  rw [exec_encodeFrame f s h, exec_encodeFrame f s hmap, bytes_encodeFrame, bytes_encodeFrame,
    encodePayload_map_channelMask]

/-- Settles O32: the flags result byte is the low nibble, and the record is read by definition from bits 0 to 3. -/
theorem decodeFlagsReportsTheLowFourBits : Obligations.DecodeFlagsReportsTheLowFourBits := by
  refine fun b s => ⟨?_, rfl⟩
  rw [← flagsByte_decodeFlags]
  rfl

/-- Settles O33, by the bytes of the encoded frame. -/
theorem encodeFrameBuildsAValidFrame : Obligations.EncodeFrameBuildsAValidFrame := by
  refine fun ch f s h => ⟨?_, fun r => validate_encodeFrame r ch f⟩
  rw [exec_encodeFrame f s h, bytes_encodeFrame]
  rfl

/-! ### The independence of the channels -/

/-- Channel `i` of a decode is a function of payload bits `11 i` to `11 i + 10`. -/
theorem getD_decodeChannels_congr {F G : Frame} {i : Nat} (hi : i < 16)
    (h : ∀ j, j < 11 → (payloadInt F.payload).testBit (11 * i + j) = (payloadInt G.payload).testBit (11 * i + j)) :
    (decodeChannels F).getD i 0 = (decodeChannels G).getD i 0 := by
  have hfield : fieldAt 11 (payloadInt F.payload) i = fieldAt 11 (payloadInt G.payload) i := by
    refine Nat.eq_of_testBit_eq fun j => ?_
    rw [testBit_fieldAt, testBit_fieldAt]
    by_cases hj : j < 11
    · rw [h j hj]
    · simp [hj]
  rw [List.getD_eq_getElem _ _ (by simpa using hi), List.getD_eq_getElem _ _ (by simpa using hi),
    getElem_decodeChannels, getElem_decodeChannels, hfield]

/-- Every value of an array of isolated channels (R117) is 0 or 2047. -/
theorem le_of_mem_set_set {i k : Nat} {v : U16}
    (h : v ∈ ((List.replicate 16 (0 : U16)).set i 2047).set k 2047) : v.toNat ≤ 2047 := by
  rcases List.mem_or_eq_of_mem_set h with h | rfl
  · rcases List.mem_or_eq_of_mem_set h with h | rfl
    · rw [List.eq_of_mem_replicate h]
      decide
    · decide
  · decide

/-- Settles O35: a channel is its 11-bit field, an encoded bit is read from its own channel only, and the isolated arrays
are cases of the round trip. -/
theorem channelsDoNotInterfere : Obligations.ChannelsDoNotInterfere := by
  refine ⟨fun F G i hi h => getD_decodeChannels_congr hi fun j hj => ?_, fun ch i v _ b hb hout => ?_,
    fun F i k _ _ hF => decodeChannels_of_encodePayload_of_le (by simp) (fun v hv => le_of_mem_set_set hv) hF⟩
  · rw [testBit_payloadInt, testBit_payloadInt, h _ (by omega) (by omega)]
  · have hne : i ≠ b / 11 := by omega
    rw [← testBit_payloadInt, ← testBit_payloadInt, testBit_payloadInt_encodePayload _ hb,
      testBit_payloadInt_encodePayload _ hb, List.getD_eq_getElem?_getD, List.getElem?_set_ne hne,
      ← List.getD_eq_getElem?_getD]

end Sys2Proof.Machine
end

section
/-! PROOFS. The synchronizer family (42_synchronizer.md): PUSH on both sides of the capacity check, NEXT by the first
accepted offset of the live window, what it consumes, the resync property, and STATUS. -/

namespace Sys2Proof.Machine

/-! ### PUSH -/

/-- PUSH responds only, or writes its block and responds (R131), in every state. -/
theorem exec_push_cases (block : List Byte) (s : State) :
    (¬ s.avail + block.length ≤ s.cfg.capacity - 1 ∧ exec (.push block) s = .next (s.answered .bufferOverflow [])) ∨
    (s.avail + block.length ≤ s.cfg.capacity - 1 ∧
      exec (.push block) s = .next ((s.pushBytes block).respond .ok [])) := by
  by_cases hfits : s.avail + block.length ≤ s.cfg.capacity - 1
  · exact .inr ⟨hfits, exec_push_fits hfits⟩
  · exact .inl ⟨hfits, exec_push_over (Nat.lt_of_not_le hfits)⟩

/-- A block that fits is answered OK, in every state. -/
theorem exec_push_fits_ok {s : State} {block : List Byte} (h : s.avail + block.length ≤ s.cfg.capacity - 1) :
    ∃ t, exec (.push block) s = .next t ∧ t.responses = s.responses ++ [{ status := .ok, result := [] }] :=
  ⟨_, exec_push_fits h, by simp⟩

theorem Memory.read_congr {m m' : Memory} {a : Nat} (h : m.read? a = m'.read? a) : m.read a = m'.read a := by
  rw [Memory.read, h, Memory.read]

/-- Settles O38: a refused block is answered only, and the laws of `pushBytes` say what an accepted one writes. -/
theorem pushIsAllOrNothing : Obligations.PushIsAllOrNothing := by
  refine fun block s hs => ⟨exec_push_over, fun hfits => ⟨_, exec_push_fits hfits, ?_⟩⟩
  have hpos := hs.pos
  have hroom : s.avail + block.length < s.cfg.capacity := by omega
  have hcell (j : Nat) (hj : j < block.length) :
      (s.pushBytes block).ring.read? ((s.wr + j) % s.cfg.capacity) = block[j]? := by
    rw [State.read?_pushBytes hs block (by omega) hj, List.getElem?_eq_getElem hj]
  have hother (a : Nat) (ha : ∀ j, j < block.length → a ≠ (s.wr + j) % s.cfg.capacity) :=
    State.read?_pushBytes_of_ne hs block ha
  exact ⟨State.window_pushBytes hs block hroom, State.avail_pushBytes hs block hroom, State.pushBytes_wr hs block,
    by simp, by simp, by simp, by simp, hcell, fun a ha => ⟨hother a ha, Memory.read_congr (hother a ha)⟩⟩

/-- Settles O39, by the two cases of the capacity check. -/
theorem pushChecksTheWholeBlock : Obligations.PushChecksTheWholeBlock := by
  intro block s
  rcases exec_push_cases block s with ⟨hover, hexec⟩ | ⟨hfits, hexec⟩
  · exact ⟨_, .bufferOverflow, hexec, rfl, iff_of_false (by decide) hover, fun _ => ⟨rfl, rfl⟩⟩
  · exact ⟨_, .ok, hexec, by simp, iff_of_true rfl hfits, absurd rfl⟩

/-- Settles O40: at most C - 1 bytes are buffered, so no bytes more always fit. -/
theorem emptyPushAlwaysSucceeds : Obligations.EmptyPushAlwaysSucceeds :=
  fun _ hs => exec_push_fits (Nat.le_sub_one_of_lt hs.avail_lt)

/-! ### Accepted offsets -/

theorem validate_eq_ok_iff (r : FooterRule) (F : Frame) :
    validate r F = .ok ↔ F.header = headerSentinel ∧ footerOk r F.footer = true := by
  by_cases hhead : F.header = headerSentinel
  · cases hfoot : footerOk r F.footer with
    | true => simp [validate, hhead, hfoot]
    | false => simp [validate_of_footer_rejected r F hhead hfoot]
  · rw [validate_of_header_ne r F hhead]
    exact iff_of_false nofun fun h => hhead h.1

/-- An offset with a whole window behind it is accepted exactly when the frame that starts there is valid. -/
theorem accepted_iff_validate (r : FooterRule) {W : List Byte} {j : Nat} (h : j + 25 ≤ W.length) :
    Accepted r W j ↔ validate r (frameAt W j) = .ok := by
  rw [validate_eq_ok_iff]
  exact ⟨fun ⟨⟨_, hhead⟩, hfoot⟩ => ⟨hhead, hfoot⟩, fun ⟨hhead, hfoot⟩ => ⟨⟨h, hhead⟩, hfoot⟩⟩

theorem not_candidate_of_short {W : List Byte} (h : W.length < 25) (j : Nat) : ¬ Candidate W j :=
  fun hj => by have := hj.1; omega

theorem exists_firstAccepted {r : FooterRule} {W : List Byte} {j : Nat} (h : Accepted r W j) :
    ∃ k, k ≤ j ∧ FirstAccepted r W k := by
  classical
  have hex : ∃ i, Accepted r W i := ⟨j, h⟩
  exact ⟨Nat.find hex, Nat.find_min' hex h, Nat.find_spec hex, fun _ => Nat.find_min hex⟩

/-- The frame read from a window after its leading bytes `G`, whatever follows it. -/
theorem frameAt_append (G T : List Byte) {V : Frame} (h : V.payload.length = 22) :
    frameAt (G ++ (V.bytes ++ T)) G.length = V := by
  refine Eq.trans (Frame.ofWindow_congr fun k hk => ?_) (Frame.ofWindow_bytes h)
  have hk' : k < V.bytes.length := by rw [Frame.length_bytes, h]; exact hk
  rw [List.getD_append_right _ _ _ _ (Nat.le_add_right _ _), Nat.add_sub_cancel_left, List.getD_append _ _ _ _ hk']

/-- A valid frame is accepted where it starts. -/
theorem accepted_append {r : FooterRule} (G T : List Byte) {V : Frame} (h : V.payload.length = 22)
    (hV : validate r V = .ok) : Accepted r (G ++ (V.bytes ++ T)) G.length := by
  have hlen : G.length + 25 ≤ (G ++ (V.bytes ++ T)).length := by
    simp only [List.length_append, Frame.length_bytes, h]
    omega
  rwa [accepted_iff_validate r hlen, frameAt_append G T h]

/-- A valid frame at the front of a window is the first accepted one. -/
theorem firstAccepted_zero {r : FooterRule} (T : List Byte) {V : Frame} (h : V.payload.length = 22)
    (hV : validate r V = .ok) : FirstAccepted r (V.bytes ++ T) 0 :=
  ⟨accepted_append [] T h hV, fun _ hi => absurd hi (Nat.not_lt_zero _)⟩

/-! ### NEXT by the accepted offsets of the live window -/

/-- A Packet's result bytes (R78): the channels, then the low four flag bits. -/
theorem packetBytes_framePacket (F : Frame) :
    packetBytes (framePacket F) = channelBytes (decodeChannels F) ++ [F.flagByte &&& 0x0F] := by
  rw [framePacket, packetBytes, flagsByte_decodeFlags]

/-- NEXT with bytes buffered (R142): it emits the frame at the first accepted offset, or finds none and leaves at most 24
bytes, its status telling whether there was a candidate. -/
theorem exec_next_nonempty_cases {s : State} (h : s.Wf) (hne : s.avail ≠ 0) :
    (∃ j, FirstAccepted s.cfg.footerRule s.window j ∧
      exec .next s = .next ((s.advanceRd (j + 25)).respond .ok (packetBytes (framePacket (frameAt s.window j))))) ∨
    ((∀ j, ¬ Accepted s.cfg.footerRule s.window j) ∧
      ∃ rej : Bool, (rej = true ↔ ∃ j, Candidate s.window j) ∧ exec .next s =
        .next ((s.advanceRd (s.avail - 24)).respond (if rej then .invalidFrame else .incompleteData) [])) := by
  rw [exec_next_search hne]
  rcases searchFrame_spec h (fuel := s.avail + 1) (by omega) false with ⟨j, hj, heq⟩ | ⟨hnone, rej, hrej, heq⟩
  · exact .inl ⟨j, hj, congrArg _ heq⟩
  · exact .inr ⟨hnone, rej, by simpa using hrej, congrArg _ heq⟩

theorem FirstAccepted.avail_ne_zero {s : State} {r : FooterRule} {j : Nat} (hj : FirstAccepted r s.window j) :
    s.avail ≠ 0 := by
  have := hj.add_le_length
  rw [State.length_window] at this
  omega

/-- NEXT emits the frame at the first accepted offset (R138). -/
theorem exec_next_emits {s : State} (h : s.Wf) {j : Nat} (hj : FirstAccepted s.cfg.footerRule s.window j) :
    exec .next s = .next ((s.advanceRd (j + 25)).respond .ok
      (channelBytes (decodeChannels (frameAt s.window j)) ++ [(frameAt s.window j).flagByte &&& 0x0F])) := by
  rw [← packetBytes_framePacket]
  rcases exec_next_nonempty_cases h hj.avail_ne_zero with ⟨k, hk, hexec⟩ | ⟨hnone, -⟩
  · rw [hj.unique hk, hexec]
  · exact absurd hj.1 (hnone j)

/-- With no accepted offset NEXT leaves at most 24 bytes (R140). -/
theorem exec_next_stops {s : State} (h : s.Wf) (hne : s.avail ≠ 0)
    (hnone : ∀ j, ¬ Accepted s.cfg.footerRule s.window j) :
    ∃ rej : Bool, (rej = true ↔ ∃ j, Candidate s.window j) ∧ exec .next s =
      .next ((s.advanceRd (s.avail - 24)).respond (if rej then .invalidFrame else .incompleteData) []) := by
  rcases exec_next_nonempty_cases h hne with ⟨j, hj, -⟩ | ⟨-, hstop⟩
  · exact absurd hj.1 (hnone j)
  · exact hstop

/-- With no accepted offset but a candidate, that candidate was rejected. -/
theorem exec_next_rejects {s : State} (h : s.Wf) (hnone : ∀ j, ¬ Accepted s.cfg.footerRule s.window j)
    (hne : s.avail ≠ 0) (hcand : ∃ j, Candidate s.window j) :
    exec .next s = .next ((s.advanceRd (s.avail - 24)).respond .invalidFrame []) := by
  obtain ⟨rej, hrej, hexec⟩ := exec_next_stops h hne hnone
  rwa [hrej.2 hcand] at hexec

/-- With bytes buffered but no candidate, NEXT answers that the data is incomplete. -/
theorem exec_next_incomplete {s : State} (h : s.Wf) (hne : s.avail ≠ 0) (hcand : ∀ j, ¬ Candidate s.window j) :
    exec .next s = .next ((s.advanceRd (s.avail - 24)).respond .incompleteData []) := by
  obtain ⟨rej, hrej, hexec⟩ := exec_next_stops h hne fun j hj => hcand j hj.1
  rwa [Bool.eq_false_iff.2 fun ht => (hrej.1 ht).elim hcand] at hexec

/-- Settles O41: each case of R142 by its own lemma, the cursor's new value respelled. -/
theorem nextHasItsClosedForm : Obligations.NextHasItsClosedForm := by
  refine fun s hs => ⟨exec_next_empty, fun j hj => ?_, fun hnone h25 => ?_, fun h1 h24 => ?_⟩
  · rw [exec_next_emits hs hj, State.advanceRd_respond, Nat.add_assoc s.rd]
  · have hne : s.avail ≠ 0 := by omega
    rw [Nat.add_sub_assoc (by omega) s.rd]
    exact ⟨exec_next_rejects hs hnone hne, exec_next_incomplete hs hne⟩
  · have hcand : ∀ j, ¬ Candidate s.window j := not_candidate_of_short (by rw [State.length_window]; omega)
    refine ⟨hcand, ?_⟩
    rw [exec_next_incomplete hs (by omega) hcand, Nat.sub_eq_zero_of_le h24, State.advanceRd_zero hs]
    rfl

/-! ### NEXT in every state -/

/-- Settles O42: the search of a non-empty ring ends with one of three other statuses. -/
theorem emptyBufferOnlyWhenNothingIsBuffered : Obligations.EmptyBufferOnlyWhenNothingIsBuffered := by
  intro s
  by_cases hempty : s.avail = 0
  · exact ⟨_, _, exec_next_empty hempty, rfl, iff_of_true rfl hempty⟩
  · obtain ⟨-, -, -, -, r, hresp, hst⟩ := searchFrame_frame (s.avail + 1) false s
    refine ⟨_, r, exec_next_search hempty, hresp, iff_of_false ?_ hempty⟩
    rcases hst with ⟨hst, -⟩ | ⟨hst | hst, -⟩ <;> rw [hst] <;> decide

/-- Settles O43, by the frame of the search. -/
theorem nextWritesOnlyTheReadCursor : Obligations.NextWritesOnlyTheReadCursor := by
  intro s t hexec
  by_cases hempty : s.avail = 0
  · cases (exec_next_empty hempty).symm.trans hexec
    exact ⟨rfl, rfl, rfl, fun _ => rfl, fun _ => rfl, _, rfl⟩
  · cases (exec_next_search hempty).symm.trans hexec
    obtain ⟨hcfg, hring, hwr, hprog, r, hresp, -⟩ := searchFrame_frame (s.avail + 1) false s
    exact ⟨hwr, hcfg, hprog, fun _ => by rw [hring], fun _ => by rw [hring], r, hresp⟩

/-! ### What NEXT consumes -/

/-- NEXT consumes nothing below 25 bytes; from 25 on it consumes 25 or more with a frame, and all but 24 without (R141). -/
theorem exec_next_consumes {s : State} (h : s.Wf) :
    ∃ (n : Nat) (st : Status) (res : List Byte), exec .next s = .next ((s.advanceRd n).respond st res) ∧
      n ≤ s.avail ∧ (s.avail < 25 → n = 0) ∧
      (25 ≤ s.avail → (st = .ok ∧ 25 ≤ n) ∨ (st ≠ .ok ∧ n = s.avail - 24)) := by
  by_cases hempty : s.avail = 0
  · refine ⟨0, .emptyBuffer, [], ?_, by omega, fun _ => rfl, by omega⟩
    rw [exec_next_empty hempty, State.advanceRd_zero h]
  rcases exec_next_nonempty_cases h hempty with ⟨j, hj, hexec⟩ | ⟨-, rej, -, hexec⟩
  · have hlen := hj.add_le_length
    rw [State.length_window] at hlen
    exact ⟨j + 25, .ok, _, hexec, hlen, by omega, fun _ => .inl ⟨rfl, by omega⟩⟩
  · exact ⟨s.avail - 24, _, [], hexec, by omega, by omega, fun _ => .inr ⟨by cases rej <;> decide, rfl⟩⟩

/-- Settles O44, by the number of bytes consumed. -/
theorem nextConsumesUnlessShort : Obligations.NextConsumesUnlessShort := by
  intro s hs
  obtain ⟨n, st, res, hexec, hn, hshort, hlong⟩ := exec_next_consumes hs
  have havail : (s.advanceRd n).avail = s.avail - n := State.avail_advanceRd hs hn
  refine ⟨_, ⟨st, res⟩, hexec, rfl, fun hlt => ?_, fun h25 => ?_⟩
  · rw [hshort hlt, State.advanceRd_zero hs]
    exact ⟨rfl, rfl⟩
  · rw [State.respond_avail, State.respond_window, havail]
    rcases hlong h25 with ⟨hst, h25n⟩ | ⟨hst, rfl⟩
    · exact .inl ⟨hst, by omega⟩
    · exact .inr ⟨hst, by omega, State.window_advanceRd hs hn⟩

/-- Settles O48, by the number of bytes NEXT consumes and the capacity check of PUSH. -/
theorem pushAndNextAlwaysMakeProgress : Obligations.PushAndNextAlwaysMakeProgress := by
  intro s hs
  obtain ⟨hC, -⟩ := hs.legal
  have hlt := hs.avail_lt
  obtain ⟨n, st, res, hexec, hn, -, hlong⟩ := exec_next_consumes hs
  have havail : ((s.advanceRd n).respond st res).avail = s.avail - n := State.avail_advanceRd hs hn
  refine ⟨fun h25 => ⟨_, hexec, ?_⟩, fun h24 block hblock => exec_push_fits_ok (by omega), fun hC50 => ?_⟩
  · have := hlong h25
    omega
  · have h24 : ((s.advanceRd n).respond st res).avail ≤ 24 := by omega
    have hcap : ((s.advanceRd n).respond st res).cfg.capacity = 50 := hC50
    exact ⟨_, hexec, h24, fun block hblock => exec_push_fits_ok (by omega)⟩

/-! ### The resync property -/

/-- Settles O46. Without an earlier accepted offset the frame `V` is the first accepted one; with one, NEXT moves the read
cursor by less, and different distances below C end at different cells. -/
theorem resyncFindsTheFrame : Obligations.ResyncFindsTheFrame := by
  intro s G V hs hlen hV hW hroom
  obtain ⟨_, hemit, -, -⟩ := nextHasItsClosedForm s hs
  have hW' : s.window = G ++ (V.bytes ++ []) := by rw [hW, List.append_nil]
  have hWlen : s.window.length = G.length + 25 := by rw [hW, List.length_append, Frame.length_bytes, hlen]
  have haccV : Accepted s.cfg.footerRule s.window G.length := hW' ▸ accepted_append G [] hlen hV
  have hframe : frameAt s.window G.length = V := hW' ▸ frameAt_append G [] hlen
  refine ⟨⟨fun hexec => ?_, fun hno => ?_⟩, fun j _ => hemit j⟩
  · rintro ⟨j, hj, hhead, hfoot⟩
    obtain ⟨k, hkj, hk⟩ := exists_firstAccepted (r := s.cfg.footerRule) ⟨⟨by omega, hhead⟩, hfoot⟩
    have hrd : (s.rd + G.length + 25) % s.cfg.capacity = (s.rd + k + 25) % s.cfg.capacity :=
      congrArg State.rd (Host.Outcome.next.inj (hexec.symm.trans (hemit k hk)))
    rw [Nat.add_assoc, Nat.add_assoc s.rd k] at hrd
    have := cell_inj hs.rd_lt (by omega) (by omega) hrd
    omega
  · have hfirst : FirstAccepted s.cfg.footerRule s.window G.length :=
      ⟨haccV, fun i hi ⟨⟨_, hhead⟩, hfoot⟩ => hno ⟨i, hi, hhead, hfoot⟩⟩
    rw [hemit _ hfirst, hframe]

/-! ### Overflow safety and consecutive frames -/

/-- NEXT with a valid frame at the front of the window emits it and leaves what follows (R138). -/
theorem exec_next_front {s : State} (h : s.Wf) {V : Frame} {T : List Byte} (hlen : V.payload.length = 22)
    (hV : validate s.cfg.footerRule V = .ok) (hW : s.window = V.bytes ++ T) :
    ∃ t : State, exec .next s = .next t ∧ t.Wf ∧ t.cfg = s.cfg ∧ t.window = T ∧ t.responses = s.responses ++
      [{ status := .ok, result := channelBytes (decodeChannels V) ++ [V.flagByte &&& 0x0F] }] := by
  have hVlen : V.bytes.length = 25 := by rw [Frame.length_bytes, hlen]
  have h25 : 25 ≤ s.avail := by
    rw [← State.length_window, hW, List.length_append]
    omega
  have hexec := exec_next_emits h (hW ▸ firstAccepted_zero T hlen hV)
  rw [show frameAt s.window 0 = V from hW ▸ frameAt_append [] T hlen] at hexec
  refine ⟨_, hexec, (h.advanceRd 25).respond _ _, rfl, ?_, rfl⟩
  rw [State.respond_window, State.window_advanceRd h h25, hW, List.drop_left' hVlen]

/-- PUSH of a block that fits appends it to the window (R130). -/
theorem exec_push_appends {s : State} (h : s.Wf) {block : List Byte}
    (hroom : (s.window ++ block).length < s.cfg.capacity) :
    ∃ t : State, exec (.push block) s = .next t ∧ t.Wf ∧ t.cfg = s.cfg ∧ t.window = s.window ++ block ∧
      t.responses = s.responses ++ [{ status := .ok, result := [] }] := by
  rw [List.length_append, State.length_window] at hroom
  exact ⟨_, exec_push_fits (by omega), (h.pushBytes block).respond _ _, by simp, State.window_pushBytes h block hroom,
    by simp⟩

theorem applyAll_cons {i : Instr} {is : List Instr} {s t : State} (h : exec i s = .next t) :
    applyAll (i :: is) s = applyAll is t := by
  simp only [applyAll, h]

/-- After a refused PUSH the window is as before, and so is the frame NEXT emits. -/
theorem exec_next_after_refused_push {s : State} (h : s.Wf) {j : Nat}
    (hj : FirstAccepted s.cfg.footerRule s.window j) :
    exec .next (s.answered .bufferOverflow []) = .next (State.answered
      { s.answered .bufferOverflow [] with rd := (s.rd + j + 25) % s.cfg.capacity } .ok
      (channelBytes (decodeChannels (frameAt s.window j)) ++ [(frameAt s.window j).flagByte &&& 0x0F])) := by
  obtain ⟨-, hemit, -, -⟩ := nextHasItsClosedForm _ (h.respond .bufferOverflow [])
  exact hemit j hj

/-- Two frames back to back, the second pushed in two parts, are emitted by two NEXT commands: each is at the front of the
window when its NEXT comes. -/
theorem applyAll_consecutive_frames {s : State} (h : s.Wf) {V1 V2 : Frame} {k : Nat} (hlen1 : V1.payload.length = 22)
    (hlen2 : V2.payload.length = 22) (hV1 : validate s.cfg.footerRule V1 = .ok)
    (hV2 : validate s.cfg.footerRule V2 = .ok) (hW : s.window = V1.bytes ++ V2.bytes.take k) :
    ∃ t : State, applyAll [.next, .push (V2.bytes.drop k), .next] s = .next t ∧ t.window = [] ∧
      t.responses = s.responses ++
        [{ status := .ok, result := channelBytes (decodeChannels V1) ++ [V1.flagByte &&& 0x0F] },
         { status := .ok, result := [] },
         { status := .ok, result := channelBytes (decodeChannels V2) ++ [V2.flagByte &&& 0x0F] }] := by
  obtain ⟨s1, hnext1, hs1, hcfg1, hwin1, hresp1⟩ := exec_next_front h hlen1 hV1 hW
  have hjoin : s1.window ++ V2.bytes.drop k = V2.bytes := by rw [hwin1, List.take_append_drop]
  have hroom : (s1.window ++ V2.bytes.drop k).length < s1.cfg.capacity := by
    obtain ⟨hC, -⟩ := hs1.legal
    rw [hjoin, Frame.length_bytes, hlen2]
    omega
  obtain ⟨s2, hpush, hs2, hcfg2, hwin2, hresp2⟩ := exec_push_appends hs1 hroom
  have hV2' : validate s2.cfg.footerRule V2 = .ok := by rwa [hcfg2, hcfg1]
  have hfront : s2.window = V2.bytes ++ [] := by rw [hwin2, hjoin, List.append_nil]
  obtain ⟨t, hnext2, -, -, hwin, hresp⟩ := exec_next_front hs2 hlen2 hV2' hfront
  refine ⟨t, ?_, hwin, by rw [hresp, hresp2, hresp1]; simp⟩
  rw [applyAll_cons hnext1, applyAll_cons hpush, applyAll_cons hnext2]
  rfl

/-- Settles O47, the refused PUSH and the two frames each by its own lemma. -/
theorem overflowSafetyAndConsecutiveFrames : Obligations.OverflowSafetyAndConsecutiveFrames := by
  refine ⟨fun s t block j hs hj hover hexec => ?_,
    fun s V1 V2 k hs hlen1 hlen2 hV1 hV2 _ hW => applyAll_consecutive_frames hs hlen1 hlen2 hV1 hV2 hW⟩
  cases (exec_push_over hover).symm.trans hexec
  exact ⟨rfl, rfl, exec_next_after_refused_push hs hj⟩

/-! ### STATUS -/

/-- Settles O49: each number fits in 16 bits, as C is at most 65535. -/
theorem statusReportsOccupancyAndConfiguration : Obligations.StatusReportsOccupancyAndConfiguration := by
  intro s hs
  obtain ⟨-, hC⟩ := hs.legal
  have hlt := hs.avail_lt
  have hrule : footerRuleByte s.cfg.footerRule = if s.cfg.footerRule = .strict then 0 else 1 := by
    cases s.cfg.footerRule <;> rfl
  refine ⟨?_, by omega, by omega⟩
  simp only [exec, execStatus, statusField, u16Bytes_ofNat, hrule]
  rfl

end Sys2Proof.Machine
end

section
/-! PROOFS. The aligned parse (43_parse.md): what PARSE answers, and that it agrees with NEXT on an accepted frame. -/

namespace Sys2Proof.Machine

/-- Settles O36: PARSE answers with the outcome of `validate`, and a valid frame with its Packet. -/
theorem parseValidatesThenDecodes : Obligations.ParseValidatesThenDecodes := by
  intro F s h
  rw [exec_parse s h, State.afterValidation_validate, packetBytes_framePacket]
  rfl

/-- PARSE of a valid frame answers its Packet (R160). -/
theorem exec_parse_of_valid {F : Frame} (s : State) (h : F.payload.length = 22)
    (hV : validate s.cfg.footerRule F = .ok) :
    exec (.parse F) s = .next (s.respond .ok (packetBytes (framePacket F))) := by
  rw [exec_parse s h, hV]
  rfl

/-- A Packet's result has 33 bytes (R78). -/
theorem length_packetBytes_framePacket (F : Frame) : (packetBytes (framePacket F)).length = 33 := by
  rw [length_packetBytes, framePacket, length_decodeChannels]

/-- Settles O37: the frame at an accepted offset is valid, so PARSE answers its Packet, the one that NEXT emits. -/
theorem parseAndNextGiveTheSamePacket : Obligations.ParseAndNextGiveTheSamePacket := by
  intro s j hs hj
  have hvalid : validate s.cfg.footerRule (frameAt s.window j) = .ok :=
    (accepted_iff_validate _ hj.add_le_length).1 hj.1
  have hnext := exec_next_emits hs hj
  rw [← packetBytes_framePacket] at hnext
  exact ⟨_, _, _, hnext, exec_parse_of_valid s (Frame.ofWindow_wf _) hvalid, rfl, rfl,
    length_packetBytes_framePacket _⟩

end Sys2Proof.Machine
end

section
/-! PROOFS. The exceptions family (60_exceptions.md): which status and how many result bytes each command answers (R170),
what an error leaves alone (R172), and that no run stops (R173). -/

namespace Sys2Proof

/-! ### The tables of R80 and R170 -/

/-- The number of result bytes of an OK response (R80). -/
def Opcode.okLength : Opcode → Nat
  | .validate => 0
  | .decode => 32
  | .encode => 22
  | .decodeFlags => 1
  | .encodeFrame => 25
  | .parse => 33
  | .push => 0
  | .next => 33
  | .status => 5

/-- The errors that a command with its format's operand length raises: the "raised by" column of R170. -/
def Opcode.errors : Opcode → List Machine.Status
  | .validate => [.invalidHeader, .invalidFooter]
  | .parse => [.invalidHeader, .invalidFooter]
  | .push => [.bufferOverflow]
  | .next => [.emptyBuffer, .incompleteData, .invalidFrame]
  | _ => []

theorem Opcode.ok_not_mem_errors (k : Opcode) : Machine.Status.ok ∉ k.errors := by
  cases k <;> decide

/-- The number of result bytes of an error response: the offending byte with a bad sentinel, otherwise none (R170). -/
def Machine.Status.errorLength : Machine.Status → Nat
  | .invalidHeader => 1
  | .invalidFooter => 1
  | _ => 0

/-- The tables allow `r` as a response to a well-formed command with opcode `k`. -/
def Opcode.MayAnswer (k : Opcode) (r : Machine.Response) : Prop :=
  r.status = .ok ∧ r.result.length = k.okLength ∨ r.status ∈ k.errors ∧ r.result.length = r.status.errorLength

end Sys2Proof

namespace Sys2Proof.Machine

/-! ### A command answers within the tables -/

/-- `t` has one response more than `s`, one that the tables allow for opcode `k`. -/
def State.AnswersFor (s : State) (k : Opcode) (t : State) : Prop :=
  ∃ r : Response, t.responses = s.responses ++ [r] ∧ k.MayAnswer r

theorem State.AnswersFor.ok (s : State) {k : Opcode} {res : List Byte} (h : res.length = k.okLength) :
    s.AnswersFor k (s.respond .ok res) := ⟨⟨.ok, res⟩, rfl, .inl ⟨rfl, h⟩⟩

theorem State.AnswersFor.error (s : State) {k : Opcode} {st : Status} {res : List Byte} (hst : st ∈ k.errors)
    (h : res.length = st.errorLength) : s.AnswersFor k (s.respond st res) := ⟨⟨st, res⟩, rfl, .inr ⟨hst, h⟩⟩

/-- A failed validation answers one byte, the offending one, in the two commands that validate (R104, R160). -/
theorem State.AnswersFor.afterValidation {s t : State} {k : Opcode} (hk : k = .validate ∨ k = .parse)
    (h : s.AnswersFor k t) (v : Validation) : s.AnswersFor k (s.afterValidation v t) := by
  cases v with
  | ok => exact h
  | invalidHeader b => exact .error s (by rcases hk with rfl | rfl <;> decide) rfl
  | invalidFooter b => exact .error s (by rcases hk with rfl | rfl <;> decide) rfl

theorem exec_push_answersFor (block : List Byte) (s : State) :
    ∃ t, exec (.push block) s = .next t ∧ s.AnswersFor .push t := by
  rcases exec_push_cases block s with ⟨-, hexec⟩ | ⟨-, hexec⟩
  · exact ⟨_, hexec, .error s (by decide) rfl⟩
  · exact ⟨_, hexec, ⟨.ok, []⟩, by simp, .inl ⟨rfl, rfl⟩⟩

theorem exec_next_answersFor (s : State) : ∃ t, exec .next s = .next t ∧ s.AnswersFor .next t := by
  by_cases hempty : s.avail = 0
  · exact ⟨_, exec_next_empty hempty, .error s (by decide) rfl⟩
  · obtain ⟨-, -, -, -, r, hresp, hr⟩ := searchFrame_frame (s.avail + 1) false s
    refine ⟨_, exec_next_search hempty, r, hresp, hr.imp_right fun ⟨hst, hres⟩ => ?_⟩
    rcases hst with hst | hst <;> rw [hst, hres] <;> decide

/-- A well-formed command answers within the tables, in every state. -/
theorem exec_answersFor {i : Instr} (s : State) (h : i.WellFormed) :
    ∃ t, exec i s = .next t ∧ s.AnswersFor i.opcode t := by
  cases i with
  | validate F =>
    exact ⟨_, exec_validate s ((Instr.wellFormed_validate F).1 h), (State.AnswersFor.ok s rfl).afterValidation (.inl rfl) _⟩
  | decode F =>
    exact ⟨_, exec_decode s ((Instr.wellFormed_decode F).1 h), .ok s (by
      rw [length_channelBytes, length_decodeChannels]; rfl)⟩
  | encode ch => exact ⟨_, exec_encode s ((Instr.wellFormed_encode ch).1 h), .ok s (length_encodePayload ch)⟩
  | decodeFlags b => exact ⟨_, rfl, .ok s rfl⟩
  | encodeFrame ch f =>
    exact ⟨_, exec_encodeFrame f s ((Instr.wellFormed_encodeFrame ch f).1 h), .ok s (by
      rw [Frame.length_bytes, encodeFrame, length_encodePayload]; rfl)⟩
  | parse F =>
    exact ⟨_, exec_parse s ((Instr.wellFormed_parse F).1 h),
      (State.AnswersFor.ok s (length_packetBytes_framePacket F)).afterValidation (.inr rfl) _⟩
  | push block => exact exec_push_answersFor block s
  | next => exact exec_next_answersFor s
  | status => exact ⟨_, rfl, .ok s rfl⟩

theorem answersFor_of_exec {i : Instr} {s t : State} (h : i.WellFormed) (hexec : exec i s = .next t) :
    s.AnswersFor i.opcode t := by
  obtain ⟨u, hu, hans⟩ := exec_answersFor s h
  cases hu.symm.trans hexec
  exact hans

/-! ### What an error leaves alone -/

/-- The response that a responding command is seen to add is the one it gave, so `s` answered with it is all that is left. -/
theorem State.respond_eq_answered {s : State} {st : Status} {res : List Byte} {r : Response}
    (h : (s.respond st res).responses = s.responses ++ [r]) : s.respond st res = s.answered r.status r.result := by
  obtain rfl : ({ status := st, result := res } : Response) = r := List.singleton_inj.1 (List.append_cancel_left h)
  rfl

/-- A search that ends without a frame has written nothing but the read cursor (R140, R172). -/
theorem searchFrame_error {fuel : Nat} {rejected : Bool} {s : State} {r : Response}
    (hresp : (searchFrame fuel rejected s).responses = s.responses ++ [r]) (hr : r.status ≠ .ok) :
    (r.status = .invalidFrame ∨ r.status = .incompleteData) ∧ searchFrame fuel rejected s =
      { s.answered r.status r.result with rd := (searchFrame fuel rejected s).rd } := by
  obtain ⟨hcfg, hring, hwr, hprog, r', hresp', hst⟩ := searchFrame_frame fuel rejected s
  obtain rfl : r' = r := List.singleton_inj.1 (List.append_cancel_left (hresp'.symm.trans hresp))
  rcases hst with ⟨hok, -⟩ | ⟨hst, -⟩
  · exact absurd hok hr
  · exact ⟨hst, State.ext_fields hcfg hring rfl hwr hprog hresp⟩

/-- A command that answers an error has only answered, or it is a NEXT that found no frame and moved the read cursor. -/
theorem exec_error {i : Instr} {s t : State} {r : Response} (hexec : exec i s = .next t)
    (hresp : t.responses = s.responses ++ [r]) (hr : r.status ≠ .ok) :
    t = s.answered r.status r.result ∨
    (i = .next ∧ (r.status = .invalidFrame ∨ r.status = .incompleteData) ∧
      t = { s.answered r.status r.result with rd := t.rd }) := by
  rcases exec_cases i s with ⟨-, -, st, res, h⟩ | ⟨block, -, ⟨-, h⟩ | ⟨-, h⟩⟩ | ⟨hi, ⟨-, h⟩ | ⟨-, h⟩⟩
  · cases h.symm.trans hexec
    exact .inl (State.respond_eq_answered hresp)
  · cases h.symm.trans hexec
    exact .inl (State.respond_eq_answered hresp)
  · cases h.symm.trans hexec
    obtain rfl : ({ status := .ok, result := [] } : Response) = r := by simpa using hresp
    exact absurd rfl hr
  · cases h.symm.trans hexec
    exact .inl (State.respond_eq_answered hresp)
  · cases h.symm.trans hexec
    exact .inr ⟨hi, searchFrame_error hresp hr⟩

/-! ### Runs -/

/-- The invariant holds at reset (R192): the ring is empty, so no cell of the live window is a stale one. -/
theorem State.inv_resetWith {c : Config} (h : c.Legal) : (State.resetWith c).Inv := by
  have hpos : 0 < c.capacity := Nat.zero_lt_of_lt h.1
  have hempty : (State.resetWith c).avail = 0 := by simp [State.avail, State.resetWith, occupancy]
  exact ⟨⟨h, hpos, hpos, rfl, nofun⟩, fun k hk => by omega⟩

theorem State.Inv.issue {s : State} (h : s.Inv) (rest : List Command) : (s.issue rest).Inv :=
  ⟨h.wf.issue rest, h.live.issue rest⟩

/-- The induction over a run: it stops nowhere, and it keeps whatever every step keeps. -/
theorem run_preserves {P : State → Prop} (hkeep : ∀ {s t : State}, P s → step s = .next t → P t) (n : Nat) {s : State}
    (hs : P s) : ∃ t, Host.Core.run Sys2Proof.core n s = .next t ∧ P t := by
  induction n generalizing s with
  | zero => exact ⟨s, rfl, hs⟩
  | succ n ih =>
    obtain ⟨u, hu⟩ := step_answers s
    obtain ⟨t, hrun, ht⟩ := ih (hkeep hs hu)
    exact ⟨t, (run_succ n hu).trans hrun, ht⟩

/-! ### The obligations of the family -/

/-- Settles O11: a command that is executed adds a response to a next state, and so does a step that does not idle. -/
theorem nothingFaultsOrRefuses : Obligations.NothingFaultsOrRefuses := by
  refine ⟨fun i s => ?_, step_answers⟩
  obtain ⟨t, -, hexec, -⟩ := exec_adds_one_response i s
  exact ⟨t, hexec⟩

/-- Settles O15: the response is within the tables, and OK is no error. -/
theorem responseLengthsFollowTheTables : Obligations.ResponseLengthsFollowTheTables := by
  intro i s t hwf hexec
  obtain ⟨⟨st, res⟩, hresp, hans⟩ := answersFor_of_exec hwf hexec
  refine ⟨_, hresp, ?_⟩
  rcases hans with ⟨rfl, hlen⟩ | ⟨hst, hlen⟩
  · cases i <;> exact hlen
  · cases st with
    | ok => exact absurd hst i.opcode.ok_not_mem_errors
    | invalidHeader => exact hlen
    | invalidFooter => exact hlen
    | _ => exact List.eq_nil_of_length_eq_zero hlen

/-- Settles O16: the response is OK or one of the errors that the command's row allows. -/
theorem statusesComeFromTheirCommands : Obligations.StatusesComeFromTheirCommands := by
  intro i s t hwf hexec
  obtain ⟨r, hresp, hans⟩ := answersFor_of_exec hwf hexec
  have hst : r.status = .ok ∨ r.status ∈ i.opcode.errors := hans.imp And.left And.left
  refine ⟨r, hresp, ?_⟩
  cases i <;> simpa [Instr.opcode, Opcode.errors] using hst

/-- Settles O18: a step executes a command, whose errors are described above, or rejects a transaction and only answers. -/
theorem errorsWriteOnlyTheReadCursorOfNext : Obligations.ErrorsWriteOnlyTheReadCursorOfNext := by
  intro s t c rest r hp hstep hresp hr
  cases hd : decode c with
  | ok i =>
    rw [step_of_decode_ok hp hd] at hstep
    rcases exec_error hstep hresp hr with heq | ⟨rfl, hst, heq⟩
    · exact .inl heq
    · exact .inr ⟨rfl, hst, heq⟩
  | error e =>
    rw [step_of_decode_error hp hd] at hstep
    cases hstep
    cases e <;> exact .inl (State.respond_eq_answered hresp)

/-- Settles O55: the invariant holds at reset with any commands placed, every step keeps it, and no step stops. -/
theorem everyRunIsSafe : Obligations.EveryRunIsSafe := fun _ commands hc n =>
  run_preserves step_preserves_inv n ((State.inv_resetWith hc).issue commands)

end Sys2Proof.Machine
end

section
/-! PROOFS. The reset family (70_reset_and_hazards.md): the state at reset, the configuration through a step, and how a run
ends. -/

namespace Sys2Proof.Machine

/-! ### The state at reset -/

/-- Both cursors are 0 at reset, so nothing is buffered (R190). -/
@[simp] theorem State.avail_resetWith (c : Config) : (State.resetWith c).avail = 0 := by
  simp [State.avail, State.resetWith, occupancy]

/-- Settles O1: the cursors and the configuration by the definition of reset, and equal cursors leave nothing buffered. -/
theorem resetEmptiesTheRing : Obligations.ResetEmptiesTheRing :=
  ⟨fun c _ => ⟨rfl, rfl, State.avail_resetWith c, rfl⟩, rfl⟩

/-- Settles O2: an empty ring with both cursors at 0 is well formed, and it has no live cell. -/
theorem resetMeetsTheInvariant : Obligations.ResetMeetsTheInvariant := fun _ => State.inv_resetWith

/-! ### The configuration -/

/-- No command writes CAPACITY or FOOTER_RULE (R191): a response, a pushed block and a search each keep them. -/
theorem exec_keeps_cfg {i : Instr} {s t : State} (h : exec i s = .next t) : t.cfg = s.cfg := by
  rcases exec_cases i s with ⟨-, -, st, res, heq⟩ | ⟨block, -, ⟨-, heq⟩ | ⟨-, heq⟩⟩ | ⟨-, ⟨-, heq⟩ | ⟨-, heq⟩⟩ <;>
    cases heq.symm.trans h
  · exact State.respond_cfg s st res
  · exact State.respond_cfg s .bufferOverflow []
  · exact State.pushBytes_cfg s block
  · exact State.respond_cfg s .emptyBuffer []
  · exact (searchFrame_frame (s.avail + 1) false s).1

/-- Settles O7: a step idles, executes a command, or only answers a transaction that is no command. -/
theorem configurationNeverChanges : Obligations.ConfigurationNeverChanges := by
  intro s t hstep
  rcases step_cases s with ⟨-, heq⟩ | ⟨c, rest, -, ⟨i, -, heq⟩ | ⟨-, -, st, -, heq⟩⟩
  · cases heq.symm.trans hstep
    rfl
  · exact (exec_keeps_cfg (heq.symm.trans hstep)).trans (State.issue_cfg s rest)
  · cases heq.symm.trans hstep
    rfl

/-! ### Runs -/

/-- As many steps as transactions still to be issued issue them all, legal or not, and add one response for each (R41). -/
theorem run_issues_all {commands : List Command} {s : State} (hp : s.program = commands) :
    ∃ t : State, Host.Core.run Sys2Proof.core commands.length s = .next t ∧ t.program = [] ∧
      t.responses.length = s.responses.length + commands.length := by
  induction commands generalizing s with
  | nil => exact ⟨s, rfl, hp, rfl⟩
  | cons c rest ih =>
    obtain ⟨u, r, hstep, hprog, hresp⟩ := step_adds_one_response hp
    obtain ⟨t, hrun, hdone, hlen⟩ := ih hprog
    refine ⟨t, (run_succ rest.length hstep).trans hrun, hdone, ?_⟩
    simp only [hlen, hresp, List.length_append, List.length_cons, List.length_nil]
    omega

/-- Settles O54, by induction on the transactions from any state that has them to issue: reset has delivered nothing. -/
theorem runsEndWithOneResponsePerCommand : Obligations.RunsEndWithOneResponsePerCommand := by
  intro c commands
  obtain ⟨t, hrun, hdone, hlen⟩ := run_issues_all (s := State.boot c commands) rfl
  exact ⟨t, hrun, hdone, hlen.trans (Nat.zero_add _)⟩

end Sys2Proof.Machine
end
